-- ==== Sys2Proof/Word.lean ====
section
/-! DEFINITION. The byte, the byte string and the 32-bit word (00_scope.md R12, 30_encoding.md R70). -/

namespace Sys2Proof

/-- A byte (R12). -/
abbrev Byte := BitVec 8

/-- A byte string, index 0 first (R12). Lengths and indexes are natural numbers. -/
abbrev Bytes := List Byte

/-- A command word or a status word (R70, R33); bit 0 is the least significant bit. -/
abbrev Word := BitVec 32

/-- A block of `n` bytes, what the primitive port carries (R9). -/
abbrev Block (n : Nat) := Vector Byte n

end Sys2Proof
end

