-- ==== Sys2Proof/Config.lean ====
section
/-! DEFINITION. What one instance fixes (00_scope.md R7, R9, R11): the block size and the keyed primitive.
All three are opaque and have no body: a claim about the machine holds whatever they are (log entry 2). -/

namespace Sys2Proof

/-- `B - 1`, free in `0..254`. -/
opaque Config.blockSizeIndex : Fin 255

/-- `B`, the block size in bytes: fixed per instance, `1 <= B <= 255` (R7). -/
def Config.B : Nat := Config.blockSizeIndex.val + 1

/-- `E`, the keyed primitive's `encryptBlock`: total, uninterpreted (R9). -/
opaque Config.E : Block Config.B → Block Config.B

/-- `D`, the keyed primitive's `decryptBlock`: total, uninterpreted (R9). -/
opaque Config.D : Block Config.B → Block Config.B

/-- `LEN_MAX`, the largest operand of one data command (R10). -/
def Config.lenMax : Nat := 2 ^ 24 - 1

theorem Config.B_bounds : 1 ≤ Config.B ∧ Config.B ≤ 255 := by
  have := Config.blockSizeIndex.isLt
  unfold Config.B
  omega

/-- A block size with the two functions of a keyed primitive. The operations of the machine take one, so that
they can be evaluated with the toy primitive of 95_test_vectors.md; the machine itself uses `Config.primitive`. -/
structure Primitive where
  B : Nat
  E : Block B → Block B
  D : Block B → Block B
  bounds : 1 ≤ B ∧ B ≤ 255

/-- The primitive wired to the instance (R9, 70_reset_and_hazards.md R281). -/
def Config.primitive : Primitive :=
  { B := Config.B, E := Config.E, D := Config.D, bounds := Config.B_bounds }

@[simp] theorem Config.primitive_B : Config.primitive.B = Config.B := rfl

/-- `PRIM_INVERSE`: `D(E(x)) = x` for every block (R9). Only a claim that names it may use it. -/
def Primitive.Inverse (P : Primitive) : Prop := ∀ x, P.D (P.E x) = x

end Sys2Proof
end

