-- ==== Sys2Proof/Syntax.lean ====
section
/-! DEFINITION. The instructions: one constructor per row of the opcode table, eight commands (30_encoding.md R71)
and seven unit steps (R84). A command carries its operand bytes (R70: "a 32-bit command word `cmd` followed by
an operand byte string"); the length fields of the word are the operand's length. -/

namespace Sys2Proof

/-- `DIR` (30_encoding.md R73, 10_state.md R24). -/
inductive Dir where
  | enc
  | dec
  deriving DecidableEq, Repr

/-- `MODE`, a closed set (30_encoding.md R73, 40_dispatcher.md R100). -/
inductive Mode where
  | ecb
  | cbc
  | cfb
  | ofb
  deriving DecidableEq, Repr

/-- `PAD` (30_encoding.md R73, 46_padding.md R180). -/
inductive Pad where
  | noPadding
  | pkcs5
  deriving DecidableEq, Repr

inductive Instr where
  /-- INIT (47_accumulator.md R200): direction, mode, padding, CFB width, IV. -/
  | init (dir : Dir) (mode : Mode) (pad : Pad) (w : BitVec 8) (iv : Bytes)
  /-- UPDATE (47_accumulator.md R204). -/
  | update (data : Bytes)
  /-- DOFINAL (47_accumulator.md R205). -/
  | dofinal (data : Bytes)
  /-- RESET (47_accumulator.md R213). -/
  | reset
  /-- SAVE (45_feedback_register_update.md R163). -/
  | save
  /-- RESTORE (45_feedback_register_update.md R164). -/
  | restore
  /-- ENCRYPT (40_dispatcher.md R105). -/
  | encrypt (data : Bytes)
  /-- DECRYPT (40_dispatcher.md R106). -/
  | decrypt (data : Bytes)
  /-- ECB.ENC, a unit step (41_ecb.md R121). -/
  | ecbEnc (x : Bytes)
  /-- ECB.DEC, a unit step (41_ecb.md R122). -/
  | ecbDec (x : Bytes)
  /-- CBC.ENC, a unit step (42_cbc.md R131). -/
  | cbcEnc (x : Bytes)
  /-- CBC.DEC, a unit step (42_cbc.md R132). -/
  | cbcDec (x : Bytes)
  /-- CFB.ENC, a unit step (43_cfb.md R141). -/
  | cfbEnc (x : Bytes)
  /-- CFB.DEC, a unit step (43_cfb.md R142). -/
  | cfbDec (x : Bytes)
  /-- OFB.STEP, a unit step (44_ofb.md R151). -/
  | ofbStep (x : Bytes)
  deriving DecidableEq, Repr

/-- One transaction of the host: a command word and the operand bytes that come with it (00_scope.md R6, R75). -/
structure Request where
  word : Word
  operand : Bytes
  deriving DecidableEq, Repr

end Sys2Proof
end

