-- ==== Sys2Proof/Decode.lean ====
section
/-! DEFINITION. Decoding and encoding of commands (30_encoding.md). Decoding is total (R76): a request is a command,
an illegal word, or a pair whose operand does not have the stated length (93_implementation_defined.md U13). -/

namespace Sys2Proof

/-! ## Fields of the command word (R71 to R74, R85) -/

def opField (w : Word) : BitVec 4 := w.extractLsb' 0 4
def dirField (w : Word) : BitVec 1 := w.extractLsb' 4 1
def modeField (w : Word) : BitVec 2 := w.extractLsb' 5 2
def padField (w : Word) : BitVec 1 := w.extractLsb' 7 1
def widthField (w : Word) : BitVec 8 := w.extractLsb' 8 8
def ivLenField (w : Word) : BitVec 8 := w.extractLsb' 16 8
def lenField (w : Word) : BitVec 24 := w.extractLsb' 8 24

/-- Bits 31:4, zero in format N (R72). -/
def zeroFieldN (w : Word) : BitVec 28 := w.extractLsb' 4 28
/-- Bits 7:4, zero in format D (R74). -/
def zeroFieldD (w : Word) : BitVec 4 := w.extractLsb' 4 4
/-- Bits 31:24, zero in format I (R73). -/
def zeroFieldI (w : Word) : BitVec 8 := w.extractLsb' 24 8

/-- A field whose bit 0 stands at bit `lo` of a 32-bit word whose other bits are zero. -/
def placeField {n : Nat} (lo : Nat) (f : BitVec n) : Word := f.setWidth 32 <<< lo

/-! ## Enumerations (R73) -/

def dirOfBits (b : BitVec 1) : Dir := if b = 0#1 then .enc else .dec
def modeOfBits (b : BitVec 2) : Mode :=
  if b = 0#2 then .ecb else if b = 1#2 then .cbc else if b = 2#2 then .cfb else .ofb
def padOfBits (b : BitVec 1) : Pad := if b = 0#1 then .noPadding else .pkcs5

def dirBits : Dir → BitVec 1
  | .enc => 0#1
  | .dec => 1#1
def modeBits : Mode → BitVec 2
  | .ecb => 0#2
  | .cbc => 1#2
  | .cfb => 2#2
  | .ofb => 3#2
def padBits : Pad → BitVec 1
  | .noPadding => 0#1
  | .pkcs5 => 1#1

/-! ## Legality -/

/-- The three formats, told apart by the opcode field alone (R70). -/
inductive Format where
  | n
  | i
  | d
  deriving DecidableEq, Repr

/-- R71. -/
def formatOfOp (op : BitVec 4) : Option Format :=
  if op = 1#4 then some .i
  else if op = 2#4 ∨ op = 3#4 ∨ op = 7#4 ∨ op = 8#4 then some .d
  else if op = 4#4 ∨ op = 5#4 ∨ op = 6#4 then some .n
  else none

/-- Why a word does not decode (R76). The hardware reports all of them as `IllegalCommand`. -/
inductive IllegalWord where
  /-- `OP` is 0 or 9 to 15. -/
  | reservedOpcode
  /-- A must-be-zero field is not zero. -/
  | mustBeZero
  /-- INIT's `W` is not legal for its `MODE` and the instance's `B` (R77). -/
  | widthOutOfRange
  deriving DecidableEq, Repr

/-- R77, on the fields of the word. -/
def widthDecodes (B : Nat) (mode : Mode) (w : BitVec 8) : Bool :=
  if mode = .cfb then decide (1 ≤ w.toNat ∧ w.toNat ≤ B) else w == 0#8

/-- What is wrong with a word, if anything (R76). -/
def illegalWord (B : Nat) (w : Word) : Option IllegalWord :=
  match formatOfOp (opField w) with
  | none => some .reservedOpcode
  | some .n => if zeroFieldN w = 0#28 then none else some .mustBeZero
  | some .d => if zeroFieldD w = 0#4 then none else some .mustBeZero
  | some .i =>
    if zeroFieldI w ≠ 0#8 then some .mustBeZero
    else if widthDecodes B (modeOfBits (modeField w)) (widthField w) then none
    else some .widthOutOfRange

/-- The number of operand bytes the word states; 0 when it does not decode (R75). -/
def operandLen (B : Nat) (w : Word) : Nat :=
  match illegalWord B w with
  | some _ => 0
  | none =>
    match formatOfOp (opField w) with
    | some .i => (ivLenField w).toNat
    | some .d => (lenField w).toNat
    | some .n => 0
    | none => 0

/-- The command of a legal word and its operand (R71); `none` for a reserved opcode. -/
def commandOf (w : Word) (operand : Bytes) : Option Instr :=
  let op := opField w
  if op = 1#4 then
    some (.init (dirOfBits (dirField w)) (modeOfBits (modeField w)) (padOfBits (padField w)) (widthField w) operand)
  else if op = 2#4 then some (.update operand)
  else if op = 3#4 then some (.dofinal operand)
  else if op = 4#4 then some .reset
  else if op = 5#4 then some .save
  else if op = 6#4 then some .restore
  else if op = 7#4 then some (.encrypt operand)
  else if op = 8#4 then some (.decrypt operand)
  else none

/-! ## Decode -/

inductive Decoded where
  /-- A command with its operand. -/
  | command (i : Instr)
  /-- The word does not decode: `IllegalCommand` (R76). -/
  | illegal (why : IllegalWord)
  /-- The operand does not have the length the word states: no run of this hardware (R75, U13). -/
  | misframed
  deriving DecidableEq, Repr

/-- Decode one request for an instance of block size `B`. No unit step is ever an answer (R84). -/
def decode (B : Nat) (q : Request) : Decoded :=
  if q.operand.length ≠ operandLen B q.word then .misframed
  else
    match illegalWord B q.word with
    | some why => .illegal why
    | none =>
      match commandOf q.word q.operand with
      | some i => .command i
      | none => .illegal .reservedOpcode

/-! ## Encode -/

/-- Format N (R72). -/
def encodeN (op : BitVec 4) : Request := ⟨placeField 0 op, []⟩

/-- Format D (R74). -/
def encodeD (op : BitVec 4) (data : Bytes) : Request :=
  ⟨placeField 0 op ||| placeField 8 (BitVec.ofNat 24 data.length), data⟩

/-- Format I (R73). -/
def encodeI (dir : Dir) (mode : Mode) (pad : Pad) (w : BitVec 8) (iv : Bytes) : Request :=
  ⟨placeField 0 1#4 ||| placeField 4 (dirBits dir) ||| placeField 5 (modeBits mode) ||| placeField 7 (padBits pad) |||
    placeField 8 w ||| placeField 16 (BitVec.ofNat 8 iv.length), iv⟩

/-- The request of a command; a unit step has no encoding of its own (R84). -/
def encode : Instr → Option Request
  | .init dir mode pad w iv => some (encodeI dir mode pad w iv)
  | .update data => some (encodeD 2#4 data)
  | .dofinal data => some (encodeD 3#4 data)
  | .reset => some (encodeN 4#4)
  | .save => some (encodeN 5#4)
  | .restore => some (encodeN 6#4)
  | .encrypt data => some (encodeD 7#4 data)
  | .decrypt data => some (encodeD 8#4 data)
  | .ecbEnc _ => none
  | .ecbDec _ => none
  | .cbcEnc _ => none
  | .cbcDec _ => none
  | .cfbEnc _ => none
  | .cfbDec _ => none
  | .ofbStep _ => none

/-- `MRESET`, the one pseudo-command: another name of RESTORE (R83). -/
def mreset : Instr := .restore

/-- A word of the opcode table with an operand of zeros of the length it states. -/
def tableRequest (B : Nat) (nbits w : Nat) : Request :=
  let word : Word := BitVec.ofNat 32 (w % 2 ^ nbits)
  ⟨word, List.replicate (operandLen B word) 0#8⟩

/-- What the decoder reads from a word of the opcode table. The table's seven unit rows have no word (R84; their
match and mask are of `CFG`), so their numbers are read as the command words they would be (log entry 6). -/
def decodeTableWord (nbits w : Nat) : Option Instr :=
  match decode Config.B (tableRequest Config.B nbits w) with
  | .command i => some i
  | .illegal _ => none
  | .misframed => none

end Sys2Proof
end

