-- ==== Sys2Proof/Machine/State.lean ====
section
/-! DEFINITION. The state of one instance (10_state.md R20), the host's side of its channels, the reasons a step can
stop, and the state after hardware reset (R39). -/

namespace Sys2Proof.Machine

/-- `FSM` (10_state.md R21). -/
inductive Fsm where
  | uninit
  | initialized
  | updating
  | finalized
  deriving DecidableEq, Repr

/-- The error codes, 0 to 7 (60_exceptions.md R231). -/
inductive Err where
  | ok
  | invalidIv
  | unalignedLength
  | noSavedState
  | incompleteBlock
  | badPadding
  | illegalCommand
  | illegalState
  deriving DecidableEq, Repr

/-- `CFG` (10_state.md R23). Its hardwired zero bits are in the view `cfgWord`. -/
structure Cfg where
  dir : Dir
  mode : Mode
  pad : Pad
  w : BitVec 8
  deriving DecidableEq, Repr

/-- One response (30_encoding.md R80). -/
structure Response where
  status : Word
  outLen : BitVec 32
  out : Bytes
  deriving DecidableEq, Repr

/-- What the host can do next (00_scope.md R17): present a command, or assert hardware reset between two commands
(70_reset_and_hazards.md R274). -/
inductive HostMove where
  | command (q : Request)
  | hardwareReset
  deriving DecidableEq, Repr

structure State where
  /-- `FSM` (R21). -/
  fsm : Fsm
  /-- `CFG` (R23). -/
  cfg : Cfg
  /-- `R`, the chaining register, `B` bytes (R25). -/
  regR : Bytes
  /-- `S`, the snapshot of `R`, `B` bytes (R26). -/
  regS : Bytes
  /-- `S_VALID` (R27). -/
  sValid : Bool
  /-- `BUF`, oldest byte first (R29); `BUF_CNT` is its length. -/
  buf : Bytes
  /-- `LAST_ERR` (R32). -/
  lastErr : Err
  /-- The output string of the command in progress (20_memory.md R56). Empty between commands (R38). -/
  out : Bytes
  /-- Model's own: what the host is going to do, in order (log entry 1). -/
  input : List HostMove
  /-- Model's own: the responses the host has taken, oldest first (log entry 1). -/
  responses : List Response
  deriving DecidableEq, Repr

/-- The reasons the machine stops. There is none: every failure is a response (60_exceptions.md R230, R246). -/
inductive Fault where
  deriving DecidableEq, Repr

/-- The reasons the model has no step. -/
inductive Refusal where
  /-- Raised by an arm of `exec` whose instruction has no meaning yet. Safe. No arm raises it now. -/
  | notModelled (mnemonic : String)
  /-- Raised by `step` when a request's operand does not have the length its word states: "cannot be written
  down" (30_encoding.md R75, 93_implementation_defined.md U13 `refuse`). Safe. -/
  | operandNotFramed
  /-- Raised by a unit step asked to run in a state whose `CFG` does not select it, or on an input that is not one
  unit: the dispatcher never runs it there (40_dispatcher.md R100, R104; log entry 5). Safe. -/
  | unitStepNotSelected
  deriving DecidableEq, Repr

/-- The state after hardware reset of an instance with block size `B`, nothing presented and nothing answered
(10_state.md R39, 70_reset_and_hazards.md R270). -/
def State.resetOf (B : Nat) : State where
  fsm := .uninit
  cfg := { dir := .enc, mode := .ecb, pad := .noPadding, w := 0#8 }
  regR := List.replicate B 0#8
  regS := List.replicate B 0#8
  sValid := false
  buf := []
  lastErr := .ok
  out := []
  input := []
  responses := []

def State.reset : State := State.resetOf Config.B

end Sys2Proof.Machine
end

