-- ==== Sys2Proof/Machine/Flags.lean ====
section
/-! DEFINITION. The control fields as bits: `FSM` (10_state.md R21), the error codes (60_exceptions.md R231), `BUF_CNT`
(R29), the `STATUS` word (R33) and the 32-bit view of `CFG` (R23). There are no arithmetic flags (R37). -/

namespace Sys2Proof.Machine

/-- R21. -/
def fsmBits : Fsm → BitVec 2
  | .uninit => 0#2
  | .initialized => 1#2
  | .updating => 2#2
  | .finalized => 3#2

/-- R231. Codes 8 to 15 are never produced. -/
def errCode : Err → BitVec 4
  | .ok => 0#4
  | .invalidIv => 1#4
  | .unalignedLength => 2#4
  | .noSavedState => 3#4
  | .incompleteBlock => 4#4
  | .badPadding => 5#4
  | .illegalCommand => 6#4
  | .illegalState => 7#4

/-- `BUF_CNT = |BUF|`, eight bits (R29). -/
def bufCnt (s : State) : BitVec 8 := BitVec.ofNat 8 s.buf.length

/-- `STATUS`: bits 3:0 `LAST_ERR`, 5:4 `FSM`, 6 `S_VALID`, 7 zero, 15:8 `BUF_CNT`, 31:16 zero (R33). -/
def statusWord (s : State) : Word :=
  placeField 0 (errCode s.lastErr) ||| placeField 4 (fsmBits s.fsm) ||| placeField 6 (BitVec.ofBool s.sValid) |||
    placeField 8 (bufCnt s)

/-- `CFG` as a 32-bit register: bit 4 `DIR`, 6:5 `MODE`, 7 `PAD`, 15:8 `W`, 3:0 and 31:16 hardwired zero (R23). -/
def cfgWord (c : Cfg) : Word :=
  placeField 4 (dirBits c.dir) ||| placeField 5 (modeBits c.mode) ||| placeField 7 (padBits c.pad) ||| placeField 8 c.w

end Sys2Proof.Machine
end

