-- ==== Sys2Proof/Machine/Operands.lean ====
section
/-! DEFINITION. Byte-string operations (00_scope.md R12, R13), the granularity (40_dispatcher.md R102) and cutting an
operand into units (R103). -/

namespace Sys2Proof.Machine

/-- `rep(v, n)` (R12). -/
def rep (v : Byte) (n : Nat) : Bytes := List.replicate n v

/-- `xor(a, b)`, byte by byte (R13). -/
def xorBytes (a b : Bytes) : Bytes := List.zipWith (fun x y => x ^^^ y) a b

/-- `x[a..b)` (R12). -/
def slice (x : Bytes) (a b : Nat) : Bytes := (x.drop a).take (b - a)

/-- A byte string as exactly `n` bytes: itself when it has `n` (log entry 3). -/
def fit (n : Nat) (x : Bytes) : Bytes := (x ++ rep 0#8 n).take n

theorem length_fit (n : Nat) (x : Bytes) : (fit n x).length = n := by
  simp [fit, rep]

/-- A byte string as a block of the primitive port. -/
def toBlock (n : Nat) (x : Bytes) : Block n := ⟨⟨fit n x⟩, by simp [length_fit]⟩

/-- `g`, the granularity (40_dispatcher.md R102). -/
def granularity (B : Nat) (cfg : Cfg) : Nat :=
  match cfg.mode with
  | .cfb => cfg.w.toNat
  | .ecb => B
  | .cbc => B
  | .ofb => B

/-- The first `k` units of `g` bytes of a byte string, in order (R103). -/
def cutUnits (g : Nat) : Nat → Bytes → List Bytes
  | 0, _ => []
  | k + 1, data => data.take g :: cutUnits g k (data.drop g)

/-- The whole units of a byte string (R103, 47_accumulator.md R204). With `g = 0`, which no reachable state has,
there is none (log entry 16). -/
def unitsOf (g : Nat) (data : Bytes) : List Bytes := cutUnits g (data.length / g) data

end Sys2Proof.Machine
end

