-- ==== Sys2Proof/Machine/Ops.lean ====
section
/-! DEFINITION. The shared operations: the primitive port (20_memory.md R60), the response of a command (30_encoding.md
R80), failing (60_exceptions.md R240), the snapshot (45_feedback_register_update.md R161, R164), applying a unit step,
and hardware reset (70_reset_and_hazards.md R270). -/

namespace Sys2Proof.Machine

/-! ## The primitive port -/

/-- The selector of a request on the port (R60). -/
inductive PrimSelect where
  | e
  | d
  deriving DecidableEq, Repr

/-- One request on the primitive port and its reply (R60). -/
def primPort (P : Primitive) (sel : PrimSelect) (x : Bytes) : Bytes :=
  match sel with
  | .e => (P.E (toBlock P.B x)).toList
  | .d => (P.D (toBlock P.B x)).toList

/-! ## Output and response -/

/-- A command starts with an empty output string: none survives a command (10_state.md R38). -/
def openOutput (s : State) : State := { s with out := [] }

/-- `Out(v)`: append to the output string of the current command (20_memory.md R56). -/
def emit (v : Bytes) (s : State) : State := { s with out := s.out ++ v }

/-- End the command: write `LAST_ERR`, deliver the one response with the `STATUS` of the state after the command,
hold no output (30_encoding.md R80, R81; 10_state.md R32). -/
def respond (e : Err) (out : Bytes) (s : State) : State :=
  let done : State := { s with lastErr := e, out := [] }
  { done with
    responses := s.responses ++ [{ status := statusWord done, outLen := BitVec.ofNat 32 out.length, out := out }] }

/-- `LAST_ERR <- 0`, with the output the command has produced. -/
def complete (s : State) : State := respond .ok s.out s

/-- `raise Err`: the one way to fail (60_exceptions.md R240). The state is the one the raising rule left; no output
produced earlier in the command is returned. There is no handler and nothing to return from (R244, R251). -/
def raise (e : Err) (s : State) : State := respond e [] s

/-! ## The snapshot -/

/-- The mode's `save()`: `S <- R; S_VALID <- 1` (R161, R163). -/
def takeSnapshot (s : State) : State := { s with regS := s.regR, sValid := true }

/-- The mode's `restore()`: `R <- S` (R164). -/
def restoreSnapshot (s : State) : State := { s with regR := s.regS }

/-! ## Unit steps -/

/-- What a unit step gives: the next `R` and the output bytes (45_feedback_register_update.md R162). -/
structure UnitResult where
  nextR : Bytes
  y : Bytes
  deriving DecidableEq, Repr

/-- Write `R` and append the output. -/
def applyUnit (u : UnitResult) (s : State) : State := { s with regR := u.nextR, out := s.out ++ u.y }

/-- `CFG.MODE` selects the engine and the input is one unit (40_dispatcher.md R100, R104). -/
def unitSelected (B : Nat) (mode : Mode) (x : Bytes) (s : State) : Bool :=
  decide (s.cfg.mode = mode) && x.length == granularity B s.cfg

/-- Run one unit step by itself, as the dispatcher does: only the selected one (log entry 5). -/
def runUnit (B : Nat) (mode : Mode) (x : Bytes) (u : UnitResult) (s : State) : Host.Outcome State Fault Refusal :=
  if unitSelected B mode x s then .next (applyUnit u s) else .refused .unitStepNotSelected

/-! ## Hardware reset -/

/-- Hardware reset, taken between commands: everything the block owns goes to its reset value (70_reset_and_hazards.md
R270, R288). What the host still does and what it has taken are not the block's (log entry 17). -/
def hardwareReset (B : Nat) (s : State) : State :=
  { State.resetOf B with input := s.input, responses := s.responses }

end Sys2Proof.Machine
end

