-- ==== Sys2Proof/Machine/Cbc.lean ====
section
/-! DEFINITION. cbc_engine (42_cbc.md). -/

namespace Sys2Proof.Machine

/-- `CBC.ENC`: the output block and the new register are the same value (R131). -/
def cbcEncStep (P : Primitive) (r x : Bytes) : UnitResult :=
  let c := primPort P .e (xorBytes x r)
  { nextR := c, y := c }

/-- `CBC.DEC`: the XOR uses the old register, the new one is the step's input (R132). -/
def cbcDecStep (P : Primitive) (r x : Bytes) : UnitResult :=
  { nextR := x, y := xorBytes (primPort P .d x) r }

def execCbcEnc (x : Bytes) (s : State) : Host.Outcome State Fault Refusal :=
  runUnit Config.B .cbc x (cbcEncStep Config.primitive s.regR x) s

def execCbcDec (x : Bytes) (s : State) : Host.Outcome State Fault Refusal :=
  runUnit Config.B .cbc x (cbcDecStep Config.primitive s.regR x) s

end Sys2Proof.Machine
end

