-- ==== Sys2Proof/Machine/Cfb.lean ====
section
/-! DEFINITION. cfb_engine (43_cfb.md): keystream from `E` in both directions, ciphertext refills the register at the
high indexes (20_memory.md R52 item 4, 90_conflicts.md C6). -/

namespace Sys2Proof.Machine

/-- `R[W..B) ++ v`: shift toward index 0 by `W` bytes and append (R141, R142). -/
def shiftIn (B w : Nat) (r v : Bytes) : Bytes := slice r w B ++ v

/-- `CFB.ENC` (R141). -/
def cfbEncStep (P : Primitive) (w : Nat) (r x : Bytes) : UnitResult :=
  let o := primPort P .e r
  let c := xorBytes (slice o 0 w) x
  { nextR := shiftIn P.B w r c, y := c }

/-- `CFB.DEC`: refilled with the input, not the output (R142). -/
def cfbDecStep (P : Primitive) (w : Nat) (r x : Bytes) : UnitResult :=
  let o := primPort P .e r
  { nextR := shiftIn P.B w r x, y := xorBytes (slice o 0 w) x }

def execCfbEnc (x : Bytes) (s : State) : Host.Outcome State Fault Refusal :=
  runUnit Config.B .cfb x (cfbEncStep Config.primitive s.cfg.w.toNat s.regR x) s

def execCfbDec (x : Bytes) (s : State) : Host.Outcome State Fault Refusal :=
  runUnit Config.B .cfb x (cfbDecStep Config.primitive s.cfg.w.toNat s.regR x) s

end Sys2Proof.Machine
end

