-- ==== Sys2Proof/Machine/Ecb.lean ====
section
/-! DEFINITION. ecb_engine (41_ecb.md): no register is read or written (R120). -/

namespace Sys2Proof.Machine

/-- `ECB.ENC` (R121). -/
def ecbEncStep (P : Primitive) (r x : Bytes) : UnitResult := { nextR := r, y := primPort P .e x }

/-- `ECB.DEC` (R122). -/
def ecbDecStep (P : Primitive) (r x : Bytes) : UnitResult := { nextR := r, y := primPort P .d x }

def execEcbEnc (x : Bytes) (s : State) : Host.Outcome State Fault Refusal :=
  runUnit Config.B .ecb x (ecbEncStep Config.primitive s.regR x) s

def execEcbDec (x : Bytes) (s : State) : Host.Outcome State Fault Refusal :=
  runUnit Config.B .ecb x (ecbDecStep Config.primitive s.regR x) s

end Sys2Proof.Machine
end

