-- ==== Sys2Proof/Machine/Ofb.lean ====
section
/-! DEFINITION. ofb_engine (44_ofb.md): one step for both directions, `D` is never requested. -/

namespace Sys2Proof.Machine

/-- `OFB.STEP`: advance the keystream state, then XOR with the NEW register (R151). -/
def ofbStep (P : Primitive) (r x : Bytes) : UnitResult :=
  let r' := primPort P .e r
  { nextR := r', y := xorBytes x r' }

def execOfbStep (x : Bytes) (s : State) : Host.Outcome State Fault Refusal :=
  runUnit Config.B .ofb x (ofbStep Config.primitive s.regR x) s

end Sys2Proof.Machine
end

