-- ==== Sys2Proof/Machine/ModeLayer.lean ====
section
/-! DEFINITION. The mode dispatcher (40_dispatcher.md): selection of the unit step, `ModeOp`, ENCRYPT and DECRYPT. -/

namespace Sys2Proof.Machine

/-- The unit step of a mode and a direction (R104); `dec` is true for the mode's decrypt. -/
def unitStep (P : Primitive) (cfg : Cfg) (dec : Bool) (r x : Bytes) : UnitResult :=
  match cfg.mode, dec with
  | .ecb, false => ecbEncStep P r x
  | .ecb, true => ecbDecStep P r x
  | .cbc, false => cbcEncStep P r x
  | .cbc, true => cbcDecStep P r x
  | .cfb, false => cfbEncStep P cfg.w.toNat r x
  | .cfb, true => cfbDecStep P cfg.w.toNat r x
  | .ofb, false => ofbStep P r x
  | .ofb, true => ofbStep P r x

/-- One unit step per unit, in order; the write of `R` by a step is seen by the next (R103, 20_memory.md R61). -/
def modeRun (P : Primitive) (cfg : Cfg) (dec : Bool) : List Bytes → Bytes → UnitResult
  | [], r => { nextR := r, y := [] }
  | x :: rest, r =>
    let u := unitStep P cfg dec r x
    let v := modeRun P cfg dec rest u.nextR
    { nextR := v.nextR, y := u.y ++ v.y }

/-- `ModeOp(dec, data)`: its output is appended to the command's output, `R` is left where the chaining landed
(R103). Reached only with `|data| mod g = 0`. -/
def modeOp (P : Primitive) (dec : Bool) (data : Bytes) (s : State) : State :=
  applyUnit (modeRun P s.cfg dec (unitsOf (granularity P.B s.cfg) data) s.regR) s

/-- ENCRYPT and DECRYPT but for the direction (R105, R106): neither reads `CFG.DIR`, `CFG.PAD` or `BUF`. -/
def directCommand (P : Primitive) (dec : Bool) (data : Bytes) (s : State) : Host.Outcome State Fault Refusal :=
  if s.fsm = .uninit then .next (raise .illegalState s)
  else if data.length % granularity P.B s.cfg ≠ 0 then .next (raise .unalignedLength s)
  else .next (complete (modeOp P dec data (openOutput s)))

/-- ENCRYPT (R105). -/
def execEncrypt (data : Bytes) (s : State) : Host.Outcome State Fault Refusal :=
  directCommand Config.primitive false data s

/-- DECRYPT (R106). -/
def execDecrypt (data : Bytes) (s : State) : Host.Outcome State Fault Refusal :=
  directCommand Config.primitive true data s

end Sys2Proof.Machine
end

