-- ==== Sys2Proof/Machine/Padding.lean ====
section
/-! DEFINITION. pkcs7_padding_unit (46_padding.md). -/

namespace Sys2Proof.Machine

/-- `pad_PKCS5`, on `0 <= |b| <= B`: `n` bytes of value `n`, a whole block of them when `b` ends on a block boundary
(R181, R182). -/
def padPkcs5 (B : Nat) (b : Bytes) : Bytes :=
  let n := B - b.length % B
  b ++ rep (BitVec.ofNat 8 n) n

/-- `pad_NoPadding`: a pure length check, nothing is appended; `none` is `IncompleteBlock` (R183). -/
def padNoPadding (b : Bytes) : Option Bytes :=
  if b.length ≠ 0 then none else some []

/-- `PadBytesOk(L, n)`: every one of the `B` positions is compared, with no early exit (R185). -/
def padBytesOk (B : Nat) (l : Bytes) (n : Nat) : Bool :=
  let lo := if n ≤ B then B - n else 0
  (List.range B).foldl (fun acc i => acc && (decide (i < lo) || (l.getD i 0#8).toNat == n)) true

/-- `unpad_PKCS5(L)` on a block; `none` is `BadPadding`, one error for its three causes (R184, R187). -/
def unpadPkcs5 (B : Nat) (l : Bytes) : Option Bytes :=
  let n := (l.getD (B - 1) 0#8).toNat
  if decide (n ≠ 0) && decide (n ≤ B) && padBytesOk B l n then some (l.take (B - n)) else none

end Sys2Proof.Machine
end

