-- ==== Sys2Proof/Machine/Accumulator.lean ====
section
/-! DEFINITION. cipher_buffer_accumulator (47_accumulator.md): INIT, UPDATE, DOFINAL, RESET. -/

namespace Sys2Proof.Machine

/-! ## INIT -/

/-- IV validation; "none" is the empty IV (R201). -/
def ivAccepted (B : Nat) (mode : Mode) (iv : Bytes) : Bool :=
  match mode with
  | .ecb => iv.length == 0
  | .cbc => iv.length == B
  | .cfb => iv.length == B
  | .ofb => iv.length == B

/-- The value INIT loads into `R` (45_feedback_register_update.md R160). -/
def initialRegister (B : Nat) (mode : Mode) (iv : Bytes) : Bytes :=
  match mode with
  | .ecb => rep 0#8 B
  | .cbc => iv
  | .cfb => iv
  | .ofb => iv

/-- Bind a configuration: nothing of the previous one survives (R200, R202). -/
def bindMode (B : Nat) (cfg : Cfg) (iv : Bytes) (s : State) : State :=
  takeSnapshot { s with cfg := cfg, regR := initialRegister B cfg.mode iv, buf := [], fsm := .initialized }

/-- INIT for an instance of block size `B` (R200). It reads no state. -/
def initCommand (B : Nat) (cfg : Cfg) (iv : Bytes) (s : State) : Host.Outcome State Fault Refusal :=
  if ivAccepted B cfg.mode iv then .next (complete (bindMode B cfg iv (openOutput s)))
  else .next (raise .invalidIv s)

def execInit (dir : Dir) (mode : Mode) (pad : Pad) (w : BitVec 8) (iv : Bytes) (s : State) :
    Host.Outcome State Fault Refusal :=
  initCommand Config.B { dir := dir, mode := mode, pad := pad, w := w } iv s

/-! ## UPDATE -/

/-- `UpdatePart(data)`: cut whole units from `BUF ++ data`, run them, keep the rest (R204). Its `out1` is what it
appends to the command's output. -/
def updatePart (P : Primitive) (data : Bytes) (s : State) : State :=
  let t := s.buf ++ data
  let g := granularity P.B s.cfg
  let k := t.length / g
  let done := modeOp P (decide (s.cfg.dir = .dec)) (slice t 0 (k * g)) s
  { done with buf := slice t (k * g) t.length, fsm := .updating }

def updateCommand (P : Primitive) (data : Bytes) (s : State) : Host.Outcome State Fault Refusal :=
  if s.fsm = .uninit then .next (raise .illegalState s)
  else .next (complete (updatePart P data (openOutput s)))

/-- UPDATE (R204). -/
def execUpdate (data : Bytes) (s : State) : Host.Outcome State Fault Refusal :=
  updateCommand Config.primitive data s

/-! ## DOFINAL -/

/-- `FinalEncPkcs5(out1)` (R206); the width that does not divide the block (R207). -/
def finalEncPkcs5 (P : Primitive) (s : State) : Except Err State :=
  let p := padPkcs5 P.B s.buf
  if P.B % granularity P.B s.cfg ≠ 0 then .error .unalignedLength
  else .ok { modeOp P false p s with buf := [] }

/-- `FinalNoPadding(out1)`, both directions (R208). -/
def finalNoPadding (s : State) : Except Err State :=
  match padNoPadding s.buf with
  | none => .error .incompleteBlock
  | some tail => .ok (emit tail s)

/-- `FinalDecPkcs5(out1)`: check and strip the last `B` bytes of this command's own output (R209 to R211). -/
def finalDecPkcs5 (B : Nat) (s : State) : Except Err State :=
  if s.buf.length ≠ 0 then .error .incompleteBlock
  else if s.out.length < B then .error .incompleteBlock
  else
    match unpadPkcs5 B (slice s.out (s.out.length - B) s.out.length) with
    | none => .error .badPadding
    | some body => .ok { s with out := slice s.out 0 (s.out.length - (B - body.length)) }

/-- The final part (R205). -/
def finalPart (P : Primitive) (s : State) : Except Err State :=
  match s.cfg.dir, s.cfg.pad with
  | .enc, .pkcs5 => finalEncPkcs5 P s
  | .enc, .noPadding => finalNoPadding s
  | .dec, .noPadding => finalNoPadding s
  | .dec, .pkcs5 => finalDecPkcs5 P.B s

/-- DOFINAL: the writes of the update part stand even when the final part raises (R205, 60_exceptions.md R241). -/
def dofinalCommand (P : Primitive) (data : Bytes) (s : State) : Host.Outcome State Fault Refusal :=
  if s.fsm = .uninit then .next (raise .illegalState s)
  else
    let updated := updatePart P data (openOutput s)
    match finalPart P updated with
    | .error e => .next (raise e updated)
    | .ok final => .next (complete { final with fsm := .finalized })

/-- DOFINAL (R205). -/
def execDofinal (data : Bytes) (s : State) : Host.Outcome State Fault Refusal :=
  dofinalCommand Config.primitive data s

/-! ## RESET -/

/-- RESET, the command: keeps `CFG`, `S` and `S_VALID` (R213, R214). -/
def execReset (s : State) : Host.Outcome State Fault Refusal :=
  if s.fsm = .uninit then .next (raise .illegalState s)
  else .next (complete { restoreSnapshot (openOutput s) with buf := [], fsm := .initialized })

end Sys2Proof.Machine
end

