-- ==== Sys2Proof/Machine/Feedback.lean ====
section
/-! DEFINITION. feedback_register_update (45_feedback_register_update.md): SAVE and RESTORE. -/

namespace Sys2Proof.Machine

/-- SAVE (R163). -/
def execSave (s : State) : Host.Outcome State Fault Refusal :=
  if s.fsm = .uninit then .next (raise .illegalState s)
  else .next (complete (takeSnapshot (openOutput s)))

/-- RESTORE; the check is on `S_VALID`, not on `FSM` (R164, R165). -/
def execRestore (s : State) : Host.Outcome State Fault Refusal :=
  if s.sValid = false then .next (raise .noSavedState s)
  else .next (complete (restoreSnapshot (openOutput s)))

end Sys2Proof.Machine
end

