-- ==== Sys2Proof/Machine/Dispatch.lean ====
section
/-! DEFINITION. One arm per instruction. -/

namespace Sys2Proof.Machine

/-- What one instruction does in a state. -/
def exec (i : Instr) (s : State) : Host.Outcome State Fault Refusal :=
  match i with
  | .init dir mode pad w iv => Sys2Proof.Machine.execInit dir mode pad w iv s
  | .update data => Sys2Proof.Machine.execUpdate data s
  | .dofinal data => Sys2Proof.Machine.execDofinal data s
  | .reset => Sys2Proof.Machine.execReset s
  | .save => Sys2Proof.Machine.execSave s
  | .restore => Sys2Proof.Machine.execRestore s
  | .encrypt data => Sys2Proof.Machine.execEncrypt data s
  | .decrypt data => Sys2Proof.Machine.execDecrypt data s
  | .ecbEnc x => Sys2Proof.Machine.execEcbEnc x s
  | .ecbDec x => Sys2Proof.Machine.execEcbDec x s
  | .cbcEnc x => Sys2Proof.Machine.execCbcEnc x s
  | .cbcDec x => Sys2Proof.Machine.execCbcDec x s
  | .cfbEnc x => Sys2Proof.Machine.execCfbEnc x s
  | .cfbDec x => Sys2Proof.Machine.execCfbDec x s
  | .ofbStep x => Sys2Proof.Machine.execOfbStep x s

end Sys2Proof.Machine
end

