-- ==== Sys2Proof/Machine/Step.lean ====
section
/-! DEFINITION. One step: the next host move, performed to completion (00_scope.md R6, R15). -/

namespace Sys2Proof.Machine

/-- With nothing presented the hardware waits (60_exceptions.md R250, 70_reset_and_hazards.md R273). Hardware reset is
taken between commands (R274). A word that does not decode fails with `IllegalCommand`, in every state and before any
other check (60_exceptions.md R237, R242). -/
def step (s : State) : Host.Outcome State Fault Refusal :=
  match s.input with
  | [] => .next s
  | .hardwareReset :: rest => .next (hardwareReset Config.B { s with input := rest })
  | .command q :: rest =>
    match decode Config.B q with
    | .command i => exec i { s with input := rest }
    | .illegal _ => .next (raise .illegalCommand { s with input := rest })
    | .misframed => .refused .operandNotFramed

/-- The word of the opcode table, with an operand of zeros of the length it states, as the host's next move. -/
def State.withFetchWord (s : State) (nbits w : Nat) : State :=
  { s with input := .command (tableRequest Config.B nbits w) :: s.input }

end Sys2Proof.Machine
end

