-- ==== Sys2Proof/WellFormed.lean ====
section
/-! DEFINITION. When an instruction can be written down: the legal field values of 30_encoding.md R73, R74, R77
and, for a unit step, the unit lengths of 40_dispatcher.md R104. -/

namespace Sys2Proof

/-- R77: the legal widths of INIT. -/
def legalWidth (B : Nat) (mode : Mode) (w : Nat) : Bool :=
  match mode with
  | .cfb => decide (1 ≤ w) && decide (w ≤ B)
  | .ecb => w == 0
  | .cbc => w == 0
  | .ofb => w == 0

/-- The instruction's fields are legal for an instance of block size `B`. -/
def wellFormed (B : Nat) : Instr → Bool
  | .init _ mode _ w iv => legalWidth B mode w.toNat && decide (iv.length ≤ 255)
  | .update data => decide (data.length ≤ Config.lenMax)
  | .dofinal data => decide (data.length ≤ Config.lenMax)
  | .reset => true
  | .save => true
  | .restore => true
  | .encrypt data => decide (data.length ≤ Config.lenMax)
  | .decrypt data => decide (data.length ≤ Config.lenMax)
  | .ecbEnc x => x.length == B
  | .ecbDec x => x.length == B
  | .cbcEnc x => x.length == B
  | .cbcDec x => x.length == B
  | .cfbEnc x => decide (1 ≤ x.length) && decide (x.length ≤ B)
  | .cfbDec x => decide (1 ≤ x.length) && decide (x.length ≤ B)
  | .ofbStep x => x.length == B

end Sys2Proof
end

