-- ==== Sys2Proof/Safety.lean ====
section
/-! DEFINITION. What a safe state and a safe run are, in the terms the statements use: the invariants of 10_state.md R34,
framed input (30_encoding.md R75), the conditions of 30_encoding.md R76 spelled on the bits of a word, and what a host
observes of a command (00_scope.md R18). -/

namespace Sys2Proof

/-- The eight commands, as against the seven unit steps (30_encoding.md R84). -/
def Instr.isCommand : Instr → Bool
  | .init .. => true
  | .update _ => true
  | .dofinal _ => true
  | .reset => true
  | .save => true
  | .restore => true
  | .encrypt _ => true
  | .decrypt _ => true
  | .ecbEnc _ => false
  | .ecbDec _ => false
  | .cbcEnc _ => false
  | .cbcDec _ => false
  | .cfbEnc _ => false
  | .cfbDec _ => false
  | .ofbStep _ => false

/-- The unit step of a mode and a direction, as an instruction (40_dispatcher.md R104). -/
def Instr.ofUnit (mode : Mode) (dec : Bool) (x : Bytes) : Instr :=
  match mode, dec with
  | .ecb, false => .ecbEnc x
  | .ecb, true => .ecbDec x
  | .cbc, false => .cbcEnc x
  | .cbc, true => .cbcDec x
  | .cfb, false => .cfbEnc x
  | .cfb, true => .cfbDec x
  | .ofb, _ => .ofbStep x

/-- R77 on the bits of an INIT word: `1 <= W <= B` with `MODE = 2`, `W = 0` otherwise. -/
def WidthLegalBits (B : Nat) (w : Word) : Prop :=
  (w.extractLsb' 5 2 = 2#2 ∧ 1 ≤ (w.extractLsb' 8 8).toNat ∧ (w.extractLsb' 8 8).toNat ≤ B) ∨
  (w.extractLsb' 5 2 ≠ 2#2 ∧ w.extractLsb' 8 8 = 0#8)

/-- R76: the word does not decode. -/
def WordIllegal (B : Nat) (w : Word) : Prop :=
  let op := w.extractLsb' 0 4
  (op = 0#4 ∨ 9 ≤ op.toNat) ∨
  ((op = 4#4 ∨ op = 5#4 ∨ op = 6#4) ∧ w.extractLsb' 4 28 ≠ 0#28) ∨
  ((op = 2#4 ∨ op = 3#4 ∨ op = 7#4 ∨ op = 8#4) ∧ w.extractLsb' 4 4 ≠ 0#4) ∨
  (op = 1#4 ∧ (w.extractLsb' 24 8 ≠ 0#8 ∨ ¬ WidthLegalBits B w))

/-- The operand has the length its word states (R75). -/
abbrev Framed (B : Nat) (q : Request) : Prop := q.operand.length = operandLen B q.word

/-- R201: the IV lengths INIT accepts. -/
def IvLegal (B : Nat) (mode : Mode) (iv : Bytes) : Prop :=
  (mode = .ecb ∧ iv.length = 0) ∨ (mode ≠ .ecb ∧ iv.length = B)

namespace Machine

/-- The invariants of 10_state.md R34 (`modeBound` to `widthZero`) with the widths of `R` and `S` (R25, R26) and the
empty output channel between commands (R38). -/
structure Inv (B : Nat) (s : State) : Prop where
  /-- Item 1. -/
  modeBound : s.sValid = true ↔ s.fsm ≠ .uninit
  /-- Item 2. -/
  uninitEmpty : s.fsm = .uninit → s.buf = []
  /-- Item 3. -/
  bufShort : s.fsm ≠ .uninit → s.buf.length < granularity B s.cfg
  /-- Item 4. -/
  initializedEmpty : s.fsm = .initialized → s.buf = []
  /-- Item 5. -/
  ecbZero : s.cfg.mode = .ecb → s.fsm ≠ .uninit → s.regR = rep 0#8 B ∧ s.regS = rep 0#8 B
  /-- Item 6, CFB. -/
  widthRange : s.cfg.mode = .cfb → s.fsm ≠ .uninit → 1 ≤ s.cfg.w.toNat ∧ s.cfg.w.toNat ≤ B
  /-- Item 6, the other modes. -/
  widthZero : s.cfg.mode ≠ .cfb → s.cfg.w = 0#8
  /-- R25. -/
  lengthR : s.regR.length = B
  /-- R26. -/
  lengthS : s.regS.length = B
  /-- R38, 30_encoding.md R81. -/
  noOutput : s.out = []

/-- The spec's own state (10_state.md R20): the three model's fields left out of account. -/
def bare (s : State) : State := { s with out := [], input := [], responses := [] }

/-- The output bytes of the last response (R18). -/
def lastOut (s : State) : Bytes :=
  match s.responses.getLast? with
  | some r => r.out
  | none => []

/-- The step has a next host move it can perform: nothing presented, hardware reset, or a framed request. -/
def InputFramed (B : Nat) (s : State) : Prop :=
  ∀ q rest, s.input = .command q :: rest → Framed B q

/-- A safe run: the invariant holds and every request still to come is framed. -/
def SafeState (B : Nat) (s : State) : Prop :=
  Inv B s ∧ ∀ q, HostMove.command q ∈ s.input → Framed B q

end Machine

end Sys2Proof
end

