-- ==== Sys2Proof/Certificates/Slice0/Obligations.lean ====
section
/-! DEFINITION. The statements for the provers. A next state is written `respond e out { s with … }`: the state with the
fields named changed, `LAST_ERR` set to `e`, and one response with the `STATUS` after it and the bytes `out` (what
`respond` does is itself stated in `ResponseCarriesStatus`); every field not named is unchanged, so each result statement
is also the instruction's frame. -/

open Sys2Proof Sys2Proof.Machine

/-! ## Encoding -/

/-- 30_encoding.md R70 to R77: no bit of an encoding is dropped, for every command and every legal operand. -/
def Obligations.DecodeEncodeAgree : Prop :=
  ∀ (B : Nat) (i : Instr), wellFormed B i = true → i.isCommand = true →
    ∃ q, encode i = some q ∧ decode B q = .command i

/-- 30_encoding.md R76, R84: what decodes is well formed, is no unit step, and is exactly its own encoding, so a word has
one meaning. -/
def Obligations.EncodeDecodeAgree : Prop :=
  ∀ (B : Nat) (q : Request) (i : Instr), B ≤ 255 → decode B q = .command i →
    wellFormed B i = true ∧ i.isCommand = true ∧ encode i = some q

/-- 30_encoding.md R78: match and mask of every command, and R77 for INIT. -/
def Obligations.DecodeFollowsMatchAndMask : Prop :=
  ∀ (B : Nat) (q : Request), Framed B q →
    ((∃ dir mode pad w iv, decode B q = .command (.init dir mode pad w iv)) ↔
      q.word &&& 0xFF00000F#32 = 0x00000001#32 ∧ WidthLegalBits B q.word) ∧
    ((∃ d, decode B q = .command (.update d)) ↔ q.word &&& 0x000000FF#32 = 0x00000002#32) ∧
    ((∃ d, decode B q = .command (.dofinal d)) ↔ q.word &&& 0x000000FF#32 = 0x00000003#32) ∧
    (decode B q = .command .reset ↔ q.word &&& 0xFFFFFFFF#32 = 0x00000004#32) ∧
    (decode B q = .command .save ↔ q.word &&& 0xFFFFFFFF#32 = 0x00000005#32) ∧
    (decode B q = .command .restore ↔ q.word &&& 0xFFFFFFFF#32 = 0x00000006#32) ∧
    ((∃ d, decode B q = .command (.encrypt d)) ↔ q.word &&& 0x000000FF#32 = 0x00000007#32) ∧
    ((∃ d, decode B q = .command (.decrypt d)) ↔ q.word &&& 0x000000FF#32 = 0x00000008#32)

/-- 30_encoding.md R76, R237: a framed request decodes exactly when none of R76's conditions holds of its word, and a word
that does not decode has the operand length 0 and fails with `IllegalCommand`, changing nothing but `LAST_ERR`. -/
def Obligations.IllegalWordsFail : Prop :=
  ∀ (s : State) (q : Request) (rest : List HostMove), s.input = .command q :: rest → Framed Config.B q →
    ((∃ i, decode Config.B q = .command i) ↔ ¬ WordIllegal Config.B q.word) ∧
    (WordIllegal Config.B q.word →
      q.operand = [] ∧ step s = .next (respond .illegalCommand [] { s with input := rest }))

/-- Words written out from 30_encoding.md R72 to R74 (95_test_vectors.md section 2.2), decoded for `B = 4`. -/
def Obligations.DecodingSamples : Prop :=
  decode 4 ⟨0x00000091#32, []⟩ = .command (.init .dec .ecb .pkcs5 0#8 []) ∧
  decode 4 ⟨0x000403C1#32, [0xa0#8, 0xa1#8, 0xa2#8, 0xa3#8]⟩ =
    .command (.init .enc .cfb .pkcs5 3#8 [0xa0#8, 0xa1#8, 0xa2#8, 0xa3#8]) ∧
  decode 4 ⟨0x00000302#32, [0x41#8, 0x42#8, 0x43#8]⟩ = .command (.update [0x41#8, 0x42#8, 0x43#8]) ∧
  decode 4 ⟨0x00000003#32, []⟩ = .command (.dofinal []) ∧
  decode 4 ⟨0x00000006#32, []⟩ = .command .restore ∧
  decode 4 ⟨0x00040541#32, []⟩ = .illegal .widthOutOfRange ∧
  decode 4 ⟨0x00000014#32, []⟩ = .illegal .mustBeZero

/-! ## The step -/

/-- A step runs the decoded instruction, the host's move being taken (00_scope.md R6). -/
def Obligations.StepRunsDecodedInstruction : Prop :=
  ∀ (s : State) (q : Request) (rest : List HostMove) (i : Instr),
    s.input = .command q :: rest → decode Config.B q = .command i → step s = exec i { s with input := rest }

/-- 60_exceptions.md R246, 30_encoding.md R80: every word with an operand of the stated length has exactly one
response, with the `STATUS` of the state after the command and the length of its output; the next state is one. -/
def Obligations.EveryFramedCommandIsAnswered : Prop :=
  ∀ (s : State) (q : Request) (rest : List HostMove), s.input = .command q :: rest → Framed Config.B q →
    ∃ t r, step s = .next t ∧ t.input = rest ∧ t.responses = s.responses ++ [r] ∧
      r.status = statusWord t ∧ r.outLen = BitVec.ofNat 32 r.out.length ∧
      r.status.extractLsb' 0 4 = errCode t.lastErr ∧ (t.lastErr ≠ .ok → r.outLen = 0#32 ∧ r.out = [])

/-- 93_implementation_defined.md U13, 60_exceptions.md R250: the only stop of a step is a request that cannot be written
down; nothing faults; with nothing presented the state stays. -/
def Obligations.StepStopsOnlyOnMisframedOperand : Prop :=
  ∀ s : State,
    (∀ r, step s = .refused r ↔
      r = .operandNotFramed ∧ ∃ q rest, s.input = .command q :: rest ∧ ¬ Framed Config.B q) ∧
    (∀ f, step s ≠ .fault f) ∧
    (s.input = [] → step s = .next s)

/-- 70_reset_and_hazards.md R270: hardware reset, asserted from any state, puts the instance into its reset state, whose
values these are. -/
def Obligations.HardwareResetFromAnyState : Prop :=
  ∀ (s : State) (rest : List HostMove), s.input = .hardwareReset :: rest →
    ∃ t, step s = .next t ∧ t.input = rest ∧ bare t = bare State.reset ∧
      t.fsm = .uninit ∧ t.sValid = false ∧ t.buf = [] ∧ bufCnt t = 0#8 ∧ t.lastErr = .ok ∧ cfgWord t.cfg = 0#32 ∧
      t.regR = rep 0#8 Config.B ∧ t.regS = rep 0#8 Config.B ∧ statusWord t = 0x00000000#32

/-- 10_state.md R33, 30_encoding.md R80: the fields of `STATUS`, and a response carries the one after the command. -/
def Obligations.ResponseCarriesStatus : Prop :=
  (∀ s : State,
    (statusWord s).extractLsb' 0 4 = errCode s.lastErr ∧ (statusWord s).extractLsb' 4 2 = fsmBits s.fsm ∧
    (statusWord s).extractLsb' 6 1 = BitVec.ofBool s.sValid ∧ (statusWord s).extractLsb' 7 1 = 0#1 ∧
    (statusWord s).extractLsb' 8 8 = BitVec.ofNat 8 s.buf.length ∧ (statusWord s).extractLsb' 16 16 = 0#16) ∧
  (∀ (e : Err) (v : Bytes) (s : State),
    respond e v s =
      { s with
        lastErr := e, out := [],
        responses := s.responses ++
          [{ status := statusWord { s with lastErr := e }, outLen := BitVec.ofNat 32 v.length, out := v }] })

/-! ## INIT -/

/-- 45_feedback_register_update.md R160, R161, 47_accumulator.md R202: INIT with an accepted IV, in every state of
`FSM`. -/
def Obligations.InitLoadsAndSnapshots : Prop :=
  ∀ (dir : Dir) (mode : Mode) (pad : Pad) (w : BitVec 8) (iv : Bytes) (s : State), IvLegal Config.B mode iv →
    exec (.init dir mode pad w iv) s =
      .next (respond .ok []
        { s with
          cfg := { dir := dir, mode := mode, pad := pad, w := w }
          regR := if mode = .ecb then rep 0#8 Config.B else iv
          regS := if mode = .ecb then rep 0#8 Config.B else iv
          sValid := true, buf := [], fsm := .initialized })

/-- 47_accumulator.md R201: INIT accepts exactly these IVs and refuses the others with `InvalidIv`. -/
def Obligations.InitValidatesIv : Prop :=
  ∀ (dir : Dir) (mode : Mode) (pad : Pad) (w : BitVec 8) (iv : Bytes) (s : State),
    (IvLegal Config.B mode iv → ∃ t, exec (.init dir mode pad w iv) s = .next t ∧ t.lastErr = .ok ∧
      (mode = .ecb → t.regR = rep 0#8 Config.B) ∧ (mode ≠ .ecb → t.regR = iv)) ∧
    (¬ IvLegal Config.B mode iv → exec (.init dir mode pad w iv) s = .next (respond .invalidIv [] s))

/-- 10_state.md R23: a successful INIT writes `CFG` as a whole from the fields of its word, at the same positions. -/
def Obligations.InitWritesCfgFromWord : Prop :=
  ∀ (s : State) (q : Request) (rest : List HostMove) (dir : Dir) (mode : Mode) (pad : Pad) (w : BitVec 8) (iv : Bytes),
    s.input = .command q :: rest → decode Config.B q = .command (.init dir mode pad w iv) →
    IvLegal Config.B mode iv → ∃ t, step s = .next t ∧ cfgWord t.cfg = q.word &&& 0x0000FFF0#32

/-! ## UPDATE and DOFINAL. In each, `t` is `BUF ++ data`, `g` the granularity, `k` the bytes of its whole units and
`run` the unit steps over them from `R`. -/

/-- 47_accumulator.md R204. -/
def Obligations.UpdateCutsWholeUnits : Prop :=
  ∀ (data : Bytes) (s : State),
    (s.fsm = .uninit → exec (.update data) s = .next (respond .illegalState [] s)) ∧
    (s.fsm ≠ .uninit →
      let t := s.buf ++ data
      let g := granularity Config.B s.cfg
      let k := t.length / g * g
      let run := modeRun Config.primitive s.cfg (decide (s.cfg.dir = .dec)) (unitsOf g (t.take k)) s.regR
      exec (.update data) s =
        .next (respond .ok run.y { s with regR := run.nextR, buf := t.drop k, fsm := .updating }))

/-- 47_accumulator.md R208: DOFINAL with NoPadding, both directions. -/
def Obligations.DofinalNoPadding : Prop :=
  ∀ (data : Bytes) (s : State), s.fsm ≠ .uninit → s.cfg.pad = .noPadding →
    let t := s.buf ++ data
    let g := granularity Config.B s.cfg
    let k := t.length / g * g
    let run := modeRun Config.primitive s.cfg (decide (s.cfg.dir = .dec)) (unitsOf g (t.take k)) s.regR
    (t.length % g = 0 →
      exec (.dofinal data) s =
        .next (respond .ok run.y { s with regR := run.nextR, buf := [], fsm := .finalized })) ∧
    (t.length % g ≠ 0 →
      exec (.dofinal data) s =
        .next (respond .incompleteBlock [] { s with regR := run.nextR, buf := t.drop k, fsm := .updating }))

/-- 47_accumulator.md R206, R207: DOFINAL that pads. The padded rest is run from where the update part left `R`; when the
granularity does not divide the block the failure is found after the update part. -/
def Obligations.DofinalEncPkcs5 : Prop :=
  ∀ (data : Bytes) (s : State), s.fsm ≠ .uninit → s.cfg.dir = .enc → s.cfg.pad = .pkcs5 →
    let t := s.buf ++ data
    let g := granularity Config.B s.cfg
    let k := t.length / g * g
    let run := modeRun Config.primitive s.cfg false (unitsOf g (t.take k)) s.regR
    let last := modeRun Config.primitive s.cfg false (unitsOf g (padPkcs5 Config.B (t.drop k))) run.nextR
    (Config.B % g = 0 →
      exec (.dofinal data) s =
        .next (respond .ok (run.y ++ last.y) { s with regR := last.nextR, buf := [], fsm := .finalized })) ∧
    (Config.B % g ≠ 0 →
      exec (.dofinal data) s =
        .next (respond .unalignedLength [] { s with regR := run.nextR, buf := t.drop k, fsm := .updating }))

/-- 47_accumulator.md R209: DOFINAL that unpads, success. -/
def Obligations.DofinalDecPkcs5Strips : Prop :=
  ∀ (data : Bytes) (s : State), s.fsm ≠ .uninit → s.cfg.dir = .dec → s.cfg.pad = .pkcs5 →
    let t := s.buf ++ data
    let g := granularity Config.B s.cfg
    let run := modeRun Config.primitive s.cfg true (unitsOf g t) s.regR
    ∀ body : Bytes, t.length % g = 0 → Config.B ≤ run.y.length →
      unpadPkcs5 Config.B (run.y.drop (run.y.length - Config.B)) = some body →
      exec (.dofinal data) s =
        .next (respond .ok (run.y.take (run.y.length - (Config.B - body.length)))
          { s with regR := run.nextR, buf := [], fsm := .finalized })

/-- 47_accumulator.md R210, R211: DOFINAL that unpads, the two structural failures and bad padding. -/
def Obligations.DofinalDecPkcs5Fails : Prop :=
  ∀ (data : Bytes) (s : State), s.fsm ≠ .uninit → s.cfg.dir = .dec → s.cfg.pad = .pkcs5 →
    let t := s.buf ++ data
    let g := granularity Config.B s.cfg
    let k := t.length / g * g
    let run := modeRun Config.primitive s.cfg true (unitsOf g (t.take k)) s.regR
    let updated : State := { s with regR := run.nextR, buf := t.drop k, fsm := .updating }
    (t.length % g ≠ 0 ∨ run.y.length < Config.B →
      exec (.dofinal data) s = .next (respond .incompleteBlock [] updated)) ∧
    (t.length % g = 0 → Config.B ≤ run.y.length →
      unpadPkcs5 Config.B (run.y.drop (run.y.length - Config.B)) = none →
      exec (.dofinal data) s = .next (respond .badPadding [] { updated with buf := [] }))

/-! ## RESET, SAVE, RESTORE, ENCRYPT, DECRYPT -/

/-- 47_accumulator.md R213, R214. -/
def Obligations.ResetRestoresSnapshot : Prop :=
  ∀ s : State,
    (s.fsm ≠ .uninit →
      exec .reset s = .next (respond .ok [] { s with regR := s.regS, buf := [], fsm := .initialized })) ∧
    (s.fsm = .uninit → exec .reset s = .next (respond .illegalState [] s))

/-- 45_feedback_register_update.md R163. -/
def Obligations.SaveTakesSnapshot : Prop :=
  ∀ s : State,
    (s.fsm ≠ .uninit → exec .save s = .next (respond .ok [] { s with regS := s.regR, sValid := true })) ∧
    (s.fsm = .uninit → exec .save s = .next (respond .illegalState [] s))

/-- 45_feedback_register_update.md R164, R165: the check is on `S_VALID`. -/
def Obligations.RestoreRecoversRegister : Prop :=
  ∀ s : State,
    (s.sValid = true → exec .restore s = .next (respond .ok [] { s with regR := s.regS })) ∧
    (s.sValid = false → exec .restore s = .next (respond .noSavedState [] s))

/-- 40_dispatcher.md R105, R107. -/
def Obligations.EncryptRunsModeLayer : Prop :=
  ∀ (data : Bytes) (s : State),
    let g := granularity Config.B s.cfg
    let run := modeRun Config.primitive s.cfg false (unitsOf g data) s.regR
    (s.fsm = .uninit → exec (.encrypt data) s = .next (respond .illegalState [] s)) ∧
    (s.fsm ≠ .uninit → data.length % g ≠ 0 → exec (.encrypt data) s = .next (respond .unalignedLength [] s)) ∧
    (s.fsm ≠ .uninit → data.length % g = 0 →
      exec (.encrypt data) s = .next (respond .ok run.y { s with regR := run.nextR }))

/-- 40_dispatcher.md R106, R107. -/
def Obligations.DecryptRunsModeLayer : Prop :=
  ∀ (data : Bytes) (s : State),
    let g := granularity Config.B s.cfg
    let run := modeRun Config.primitive s.cfg true (unitsOf g data) s.regR
    (s.fsm = .uninit → exec (.decrypt data) s = .next (respond .illegalState [] s)) ∧
    (s.fsm ≠ .uninit → data.length % g ≠ 0 → exec (.decrypt data) s = .next (respond .unalignedLength [] s)) ∧
    (s.fsm ≠ .uninit → data.length % g = 0 →
      exec (.decrypt data) s = .next (respond .ok run.y { s with regR := run.nextR }))

/-! ## Unit steps. That a unit step run by itself appends its output to the output string of the command in progress
(20_memory.md R56) is the model's choice (log entry 5). `E` and `D` are the primitive's functions on the block with the
bytes given. -/

/-- 41_ecb.md R121, R122. -/
def Obligations.EcbUnitSteps : Prop :=
  ∀ (x : Bytes) (s : State), s.cfg.mode = .ecb → x.length = Config.B →
    exec (.ecbEnc x) s = .next { s with out := s.out ++ (Config.E (toBlock Config.B x)).toList } ∧
    exec (.ecbDec x) s = .next { s with out := s.out ++ (Config.D (toBlock Config.B x)).toList }

/-- 42_cbc.md R131, R132. -/
def Obligations.CbcUnitSteps : Prop :=
  ∀ (x : Bytes) (s : State), s.cfg.mode = .cbc → x.length = Config.B →
    (let c := (Config.E (toBlock Config.B (xorBytes x s.regR))).toList
     exec (.cbcEnc x) s = .next { s with regR := c, out := s.out ++ c }) ∧
    exec (.cbcDec x) s =
      .next { s with regR := x, out := s.out ++ xorBytes (Config.D (toBlock Config.B x)).toList s.regR }

/-- 43_cfb.md R141, R142: the keystream is made with `E` in both directions and ciphertext refills `R`. -/
def Obligations.CfbUnitSteps : Prop :=
  ∀ (x : Bytes) (s : State), s.cfg.mode = .cfb → x.length = s.cfg.w.toNat → s.regR.length = Config.B →
    let w := s.cfg.w.toNat
    let y := xorBytes ((Config.E (toBlock Config.B s.regR)).toList.take w) x
    exec (.cfbEnc x) s = .next { s with regR := s.regR.drop w ++ y, out := s.out ++ y } ∧
    exec (.cfbDec x) s = .next { s with regR := s.regR.drop w ++ x, out := s.out ++ y }

/-- 44_ofb.md R151: one step for both directions; the XOR uses the new `R`. -/
def Obligations.OfbUnitStep : Prop :=
  ∀ (x : Bytes) (s : State), s.cfg.mode = .ofb → x.length = Config.B →
    let r := (Config.E (toBlock Config.B s.regR)).toList
    exec (.ofbStep x) s = .next { s with regR := r, out := s.out ++ xorBytes x r }

/-- The model's choice (log entry 5): a unit step that `CFG.MODE` does not select, or an input that is not one unit, has no
step. -/
def Obligations.UnitStepStopsUnlessSelected : Prop :=
  ∀ (mode : Mode) (dec : Bool) (x : Bytes) (s : State),
    (∃ t, exec (Instr.ofUnit mode dec x) s = .next t) ↔ (s.cfg.mode = mode ∧ x.length = granularity Config.B s.cfg)

/-- 40_dispatcher.md R104: over one unit `ModeOp` runs the unit step selected by `CFG.MODE` and the direction. -/
def Obligations.DispatcherRunsSelectedUnitStep : Prop :=
  ∀ (dec : Bool) (x : Bytes) (s : State), x.length = granularity Config.B s.cfg → 0 < x.length →
    exec (Instr.ofUnit s.cfg.mode dec x) s = .next (modeOp Config.primitive dec x s)

/-- 20_memory.md R61, 40_dispatcher.md R103: units are processed strictly in input order, the write of `R` by one seen by
the next. -/
def Obligations.UnitsRunInInputOrder : Prop :=
  ∀ (P : Primitive) (dec : Bool) (x rest : Bytes) (s : State), x.length = granularity P.B s.cfg → 0 < x.length →
    modeOp P dec (x ++ rest) s = modeOp P dec rest (modeOp P dec x s) ∧ modeOp P dec [] s = s

/-- 40_dispatcher.md R102: `g`, and `1 <= g <= B` in every state the machine can be in. -/
def Obligations.GranularityRule : Prop :=
  ∀ s : State,
    (s.cfg.mode = .cfb → granularity Config.B s.cfg = s.cfg.w.toNat) ∧
    (s.cfg.mode ≠ .cfb → granularity Config.B s.cfg = Config.B) ∧
    (Inv Config.B s → s.fsm ≠ .uninit → 1 ≤ granularity Config.B s.cfg ∧ granularity Config.B s.cfg ≤ Config.B)

/-! ## Whole-machine rules -/

/-- 10_state.md R34, R39: the invariant holds after hardware reset. -/
def Obligations.InvariantAtReset : Prop := Inv Config.B State.reset

/-- 10_state.md R34: every step from a state with the invariant, successful or failing, keeps it. -/
def Obligations.StepKeepsInvariant : Prop :=
  ∀ s t : State, Inv Config.B s → step s = .next t → Inv Config.B t

/-- 47_accumulator.md R220: the next `FSM` and the legality of every command. -/
def Obligations.FsmTransitions : Prop :=
  ∀ (i : Instr) (s : State), i.isCommand = true → (s.sValid = true ↔ s.fsm ≠ .uninit) →
    ∃ t, exec i s = .next t ∧
      (s.fsm = .uninit → (∀ dir mode pad w iv, i ≠ .init dir mode pad w iv) →
        t.lastErr = (if i = .restore then .noSavedState else .illegalState) ∧ t.fsm = .uninit) ∧
      (t.lastErr = .ok →
        t.fsm =
          match i with
          | .init .. => .initialized
          | .update _ => .updating
          | .dofinal _ => .finalized
          | .reset => .initialized
          | _ => s.fsm) ∧
      (t.lastErr ≠ .ok →
        t.fsm =
          match i with
          | .dofinal _ => if s.fsm = .uninit then .uninit else .updating
          | _ => s.fsm)

/-- 70_reset_and_hazards.md R271: only hardware reset leads back to UNINIT, and it forgets `CFG`, `S` and `S_VALID`, which
the command RESET keeps. -/
def Obligations.OnlyHardwareResetLeadsToUninit : Prop :=
  (∀ s t : State, step s = .next t → s.fsm ≠ .uninit → t.fsm = .uninit →
    ∃ rest, s.input = .hardwareReset :: rest ∧ t.cfg = State.reset.cfg ∧ t.regS = State.reset.regS ∧ t.sValid = false) ∧
  (∀ s t : State, s.fsm ≠ .uninit → exec .reset s = .next t →
    t.fsm = .initialized ∧ t.cfg = s.cfg ∧ t.regS = s.regS ∧ t.sValid = s.sValid)

/-- 45_feedback_register_update.md R162: the writers of `R`, and that ECB steps are not among them. -/
def Obligations.RegisterWriters : Prop :=
  ∀ s t : State, step s = .next t → t.regR ≠ s.regR →
    (∃ rest, s.input = .hardwareReset :: rest) ∨
    ∃ q rest i, s.input = .command q :: rest ∧ decode Config.B q = .command i ∧
      ((∃ dir mode pad w iv, i = .init dir mode pad w iv ∧ t.lastErr = .ok) ∨
        (i = .restore ∧ t.regR = s.regS) ∨ (i = .reset ∧ t.regR = s.regS) ∨
        (s.cfg.mode ≠ .ecb ∧ s.fsm ≠ .uninit ∧
          ∃ d, i = .update d ∨ i = .dofinal d ∨ i = .encrypt d ∨ i = .decrypt d))

/-- 10_state.md R26 to R28: `S` is written only by hardware reset, a successful INIT and SAVE, each of which sets it to
the `R` it leaves, and only hardware reset clears `S_VALID`. -/
def Obligations.SnapshotWriters : Prop :=
  ∀ s t : State, step s = .next t →
    (∃ rest, s.input = .hardwareReset :: rest) ∨
    ((s.sValid = true → t.sValid = true) ∧
      (t.regS ≠ s.regS → t.regS = t.regR ∧ t.sValid = true ∧ t.lastErr = .ok ∧
        ∃ q rest i, s.input = .command q :: rest ∧ decode Config.B q = .command i ∧
          (i = .save ∨ ∃ dir mode pad w iv, i = .init dir mode pad w iv)))

/-- 10_state.md R23, 40_dispatcher.md R100: `CFG` is written only by a successful INIT and hardware reset. -/
def Obligations.ConfigurationWriters : Prop :=
  ∀ s t : State, step s = .next t → t.cfg ≠ s.cfg →
    (∃ rest, s.input = .hardwareReset :: rest) ∨
    ∃ q rest dir mode pad w iv, s.input = .command q :: rest ∧
      decode Config.B q = .command (.init dir mode pad w iv) ∧ t.lastErr = .ok ∧
      t.cfg = { dir := dir, mode := mode, pad := pad, w := w }

/-- 60_exceptions.md R241, early errors: nothing changes but `LAST_ERR`. -/
def Obligations.EarlyErrorsChangeOnlyLastErr : Prop :=
  ∀ (i : Instr) (s t : State), i.isCommand = true → exec i s = .next t → t.lastErr ≠ .ok →
    ((∀ d, i ≠ .dofinal d) ∨ s.fsm = .uninit) → t = respond t.lastErr [] s

/-- 60_exceptions.md R241, late errors: the state is that of a successful UPDATE with the same operand, and the response
has no output. -/
def Obligations.LateErrorsLeaveTheUpdate : Prop :=
  ∀ (d : Bytes) (s t : State), s.fsm ≠ .uninit → exec (.dofinal d) s = .next t → t.lastErr ≠ .ok →
    (t.lastErr = .incompleteBlock ∨ t.lastErr = .unalignedLength ∨ t.lastErr = .badPadding) ∧
    ∃ u, exec (.update d) s = .next u ∧ u.lastErr = .ok ∧ t = respond t.lastErr [] { u with responses := s.responses }

/-- 30_encoding.md R81: a failing command returns no output, and the hardware holds none between commands. -/
def Obligations.FailingCommandReturnsNoOutput : Prop :=
  ∀ (s t : State) (q : Request) (rest : List HostMove), s.input = .command q :: rest → step s = .next t →
    t.out = [] ∧
    (t.lastErr ≠ .ok → t.responses = s.responses ++ [{ status := statusWord t, outLen := 0#32, out := [] }])

/-- 10_state.md R32: every command writes `LAST_ERR` and none reads it. -/
def Obligations.LastErrorIsReadByNoCommand : Prop :=
  ∀ (i : Instr) (s : State) (e : Err), i.isCommand = true → exec i { s with lastErr := e } = exec i s

/-- 60_exceptions.md R245: the same command from the state an early error left gives the same error. -/
def Obligations.EarlyErrorsRepeat : Prop :=
  ∀ (i : Instr) (s t : State), i.isCommand = true → exec i s = .next t → t.lastErr ≠ .ok →
    ((∀ d, i ≠ .dofinal d) ∨ s.fsm = .uninit) →
    ∃ u, exec i t = .next u ∧ u.lastErr = t.lastErr ∧ bare u = bare t

/-- 46_padding.md R187: every bad padding gives one and the same response. -/
def Obligations.BadPaddingIsUniform : Prop :=
  ∀ (d : Bytes) (s t : State), Inv Config.B s → exec (.dofinal d) s = .next t → t.lastErr = .badPadding →
    t.responses = s.responses ++ [{ status := 0x00000065#32, outLen := 0#32, out := [] }]

/-- 20_memory.md R59, its table (which the spec derives from 47_accumulator.md R204 to R211 and 46_padding.md R181, R184):
the output length of every successful command. For CFB with `W < B` the padded total need not be a multiple of `B`
(90_conflicts.md C10). -/
def Obligations.OutputLengthLaws : Prop :=
  ∀ (i : Instr) (s t : State), Inv Config.B s → exec i s = .next t → t.lastErr = .ok →
    match i with
    | .update d =>
      (lastOut t).length =
        granularity Config.B s.cfg * ((s.buf.length + d.length) / granularity Config.B s.cfg)
    | .encrypt d => (lastOut t).length = d.length
    | .decrypt d => (lastOut t).length = d.length
    | .dofinal d =>
      (s.cfg.pad = .noPadding → (lastOut t).length = s.buf.length + d.length) ∧
      (s.cfg.pad = .pkcs5 → s.cfg.dir = .enc →
        (lastOut t).length =
          granularity Config.B s.cfg * ((s.buf.length + d.length) / granularity Config.B s.cfg) + Config.B) ∧
      (s.cfg.pad = .pkcs5 → s.cfg.dir = .dec →
        ∃ n, 1 ≤ n ∧ n ≤ Config.B ∧ (lastOut t).length + n = s.buf.length + d.length)
    | .init .. => lastOut t = []
    | .reset => lastOut t = []
    | .save => lastOut t = []
    | .restore => lastOut t = []
    | _ => True

/-- 30_encoding.md R80: `OUT_LEN` does not wrap and stays below the bound the spec derives. -/
def Obligations.OutLenIsBounded : Prop :=
  ∀ (s t : State) (q : Request) (rest : List HostMove), Inv Config.B s → s.input = .command q :: rest →
    step s = .next t →
    ∃ r, t.responses = s.responses ++ [r] ∧ r.outLen.toNat = r.out.length ∧
      r.outLen.toNat ≤ q.operand.length + 2 * Config.B - 1

/-- 47_accumulator.md R216: operands of length 0. -/
def Obligations.ZeroLengthCommands : Prop :=
  ∀ s : State, Inv Config.B s → s.fsm ≠ .uninit →
    exec (.update []) s = .next (respond .ok [] { s with fsm := .updating }) ∧
    exec (.encrypt []) s = .next (respond .ok [] s) ∧
    exec (.decrypt []) s = .next (respond .ok [] s) ∧
    (s.cfg.pad = .noPadding → s.buf = [] →
      exec (.dofinal []) s = .next (respond .ok [] { s with fsm := .finalized })) ∧
    (s.cfg.pad = .noPadding → s.buf ≠ [] →
      exec (.dofinal []) s = .next (respond .incompleteBlock [] { s with fsm := .updating })) ∧
    (s.cfg.pad = .pkcs5 → s.cfg.dir = .dec →
      exec (.dofinal []) s = .next (respond .incompleteBlock [] { s with fsm := .updating })) ∧
    (s.cfg.pad = .pkcs5 → s.cfg.dir = .enc → Config.B % granularity Config.B s.cfg = 0 →
      let last := modeRun Config.primitive s.cfg false
        (unitsOf (granularity Config.B s.cfg) (padPkcs5 Config.B s.buf)) s.regR
      exec (.dofinal []) s =
        .next (respond .ok last.y { s with regR := last.nextR, buf := [], fsm := .finalized }))

/-- 47_accumulator.md R220, 90_conflicts.md C1: FINALIZED behaves as INITIALIZED for every command. -/
def Obligations.FinalizedActsAsInitialized : Prop :=
  ∀ (i : Instr) (s : State), i.isCommand = true →
    ∃ t u, exec i { s with fsm := .finalized } = .next t ∧ exec i { s with fsm := .initialized } = .next u ∧
      bare { t with fsm := u.fsm } = bare u ∧ lastOut t = lastOut u ∧
      (t.fsm = u.fsm ∨ (t.fsm = .finalized ∧ u.fsm = .initialized))

/-- 10_state.md R24, 40_dispatcher.md R105: ENCRYPT and DECRYPT do not read `CFG.DIR`, `CFG.PAD` or `BUF`, and leave
`BUF` and `FSM`. -/
def Obligations.DirectCommandsBypassTheBuffer : Prop :=
  ∀ (d b : Bytes) (dir : Dir) (pad : Pad) (s : State), ∀ i ∈ [Instr.encrypt d, Instr.decrypt d],
    ∃ t u, exec i s = .next t ∧ exec i { s with buf := b, cfg := { s.cfg with dir := dir, pad := pad } } = .next u ∧
      lastOut u = lastOut t ∧ u.regR = t.regR ∧ u.lastErr = t.lastErr ∧
      t.buf = s.buf ∧ u.buf = b ∧ t.fsm = s.fsm ∧ u.fsm = s.fsm

/-! ## Chunking, round trips, and what depends on what -/

/-- 20_memory.md R65: cutting the bytes of UPDATE in two does not matter. -/
def Obligations.UpdateChunking : Prop :=
  ∀ (x y : Bytes) (s : State), s.fsm ≠ .uninit →
    ∃ t1 t2 u, exec (.update x) s = .next t1 ∧ exec (.update y) t1 = .next t2 ∧ exec (.update (x ++ y)) s = .next u ∧
      bare t2 = bare u ∧ lastOut t1 ++ lastOut t2 = lastOut u

/-- 20_memory.md R65: nor does it before DOFINAL, when `CFG.DIR = ENC` or `CFG.PAD = NoPadding`. -/
def Obligations.DofinalChunking : Prop :=
  ∀ (x y : Bytes) (s : State), s.fsm ≠ .uninit → s.cfg.dir = .enc ∨ s.cfg.pad = .noPadding →
    ∃ t1 t2 u, exec (.update x) s = .next t1 ∧ exec (.dofinal y) t1 = .next t2 ∧
      exec (.dofinal (x ++ y)) s = .next u ∧ bare t2 = bare u ∧
      (u.lastErr = .ok → lastOut t1 ++ lastOut t2 = lastOut u)

/-- 40_dispatcher.md R111 item 1: DECRYPT undoes ENCRYPT from an equal register, for every primitive in CFB and OFB and
for one with `PRIM_INVERSE` in ECB and CBC, and both sides end with the same register. -/
def Obligations.ModeLayerRoundTrip : Prop :=
  ∀ (P : Primitive) (p : Bytes) (s t : State), Inv P.B s → s.fsm ≠ .uninit → p.length % granularity P.B s.cfg = 0 →
    (s.cfg.mode = .ecb ∨ s.cfg.mode = .cbc → P.Inverse) → t.cfg = s.cfg → t.regR = s.regR → t.fsm ≠ .uninit →
    ∃ u v, directCommand P false p s = .next u ∧ directCommand P true (lastOut u) t = .next v ∧
      v.lastErr = .ok ∧ lastOut v = p ∧ v.regR = u.regR

/-- 47_accumulator.md R223: the engine's round trip, one DOFINAL on each side. -/
def Obligations.EngineRoundTrip : Prop :=
  ∀ (P : Primitive) (mode : Mode) (pad : Pad) (w : BitVec 8) (iv p : Bytes) (s s' : State),
    legalWidth P.B mode w.toNat = true → IvLegal P.B mode iv → (mode = .ecb ∨ mode = .cbc → P.Inverse) →
    (pad = .pkcs5 → P.B % granularity P.B { dir := .enc, mode := mode, pad := pad, w := w } = 0) →
    (pad = .noPadding → p.length % granularity P.B { dir := .enc, mode := mode, pad := pad, w := w } = 0) →
    ∃ t1 t2 u1 u2,
      initCommand P.B { dir := .enc, mode := mode, pad := pad, w := w } iv s = .next t1 ∧
      dofinalCommand P p t1 = .next t2 ∧
      initCommand P.B { dir := .dec, mode := mode, pad := pad, w := w } iv s' = .next u1 ∧
      dofinalCommand P (lastOut t2) u1 = .next u2 ∧ t2.lastErr = .ok ∧ u2.lastErr = .ok ∧ lastOut u2 = p

/-- 40_dispatcher.md R111 item 3: a change in later bytes never changes the output of the units before. -/
def Obligations.LaterUnitsNeverChangeEarlierOutput : Prop :=
  ∀ (a b c : Bytes) (s : State), Inv Config.B s → s.fsm ≠ .uninit → a.length % granularity Config.B s.cfg = 0 →
    b.length % granularity Config.B s.cfg = 0 → c.length % granularity Config.B s.cfg = 0 →
    ∀ i ∈ [Instr.encrypt, Instr.decrypt],
      ∃ t u, exec (i (a ++ b)) s = .next t ∧ exec (i (a ++ c)) s = .next u ∧
        (lastOut t).take a.length = (lastOut u).take a.length ∧ a.length ≤ (lastOut t).length

/-- 45_feedback_register_update.md R168. -/
def Obligations.SaveRestoreIdempotence : Prop :=
  ∀ (a : Bytes) (s : State), s.fsm ≠ .uninit → a.length % granularity Config.B s.cfg = 0 →
    ∃ t1 t2 t3 t4, exec .save s = .next t1 ∧ exec (.encrypt a) t1 = .next t2 ∧ exec .restore t2 = .next t3 ∧
      exec (.encrypt a) t3 = .next t4 ∧ t2.lastErr = .ok ∧ t4.lastErr = .ok ∧ lastOut t2 = lastOut t4 ∧
      t3.regR = s.regR ∧ t4.regR = t2.regR

/-- 44_ofb.md R151, R153: in OFB the outputs of two data strings of one length differ exactly where the data do, and `R`
does not depend on the data. -/
def Obligations.OfbFlipsOnlyTheSameBits : Prop :=
  ∀ (a b : Bytes) (s : State), Inv Config.B s → s.fsm ≠ .uninit → s.cfg.mode = .ofb → a.length % Config.B = 0 →
    a.length = b.length → ∀ i ∈ [Instr.encrypt, Instr.decrypt],
      ∃ t u, exec (i a) s = .next t ∧ exec (i b) s = .next u ∧ t.regR = u.regR ∧
        xorBytes (lastOut t) (lastOut u) = xorBytes a b

/-- 45_feedback_register_update.md R162: in CBC and CFB `R` ends as the last `B` bytes of the old `R` followed by the
ciphertext, in both directions. -/
def Obligations.RegisterIsRecentCiphertext : Prop :=
  ∀ (d : Bytes) (s t : State), Inv Config.B s → s.fsm ≠ .uninit → s.cfg.mode = .cbc ∨ s.cfg.mode = .cfb →
    d.length % granularity Config.B s.cfg = 0 →
    (exec (.encrypt d) s = .next t → t.regR = (s.regR ++ lastOut t).drop (lastOut t).length) ∧
    (exec (.decrypt d) s = .next t → t.regR = (s.regR ++ d).drop d.length)

/-- 46_padding.md R184, R185, R190: the blocks `unpad` accepts, and what it returns. -/
def Obligations.UnpadAcceptsExactly : Prop :=
  ∀ (B : Nat) (l body : Bytes), 1 ≤ B → B ≤ 255 → l.length = B →
    (unpadPkcs5 B l = some body ↔
      ∃ n, 1 ≤ n ∧ n ≤ B ∧ l.drop (B - n) = rep (BitVec.ofNat 8 n) n ∧ body = l.take (B - n))

/-- 46_padding.md R181, R189: padding a partial block gives one block and unpadding gives it back. -/
def Obligations.PaddingRoundTrip : Prop :=
  ∀ (B : Nat) (b : Bytes), B ≤ 255 → b.length < B →
    (padPkcs5 B b).length = B ∧ unpadPkcs5 B (padPkcs5 B b) = some b ∧
    (padPkcs5 B b).drop b.length = rep (BitVec.ofNat 8 (B - b.length)) (B - b.length)

/-- 20_memory.md R60: the port hands `E` or `D` the block and returns its reply, byte for byte in order. -/
def Obligations.PortCarriesBlocks : Prop :=
  ∀ v : Block Config.B,
    primPort Config.primitive .e v.toList = (Config.E v).toList ∧
    primPort Config.primitive .d v.toList = (Config.D v).toList
end

