-- ==== Sys2Proof/Laws/Bytes.lean ====
section
/-! SUPPORT. Laws of the byte-string operations, of cutting into units, and of the primitive port. -/

namespace Sys2Proof.Machine

/-! ## Slices, `rep`, `xor` -/

@[simp] theorem slice_zero (x : Bytes) (n : Nat) : slice x 0 n = x.take n := by simp [slice]

@[simp] theorem slice_to_end (x : Bytes) (a : Nat) : slice x a x.length = x.drop a := by
  simp [slice, List.take_of_length_le]

theorem slice_to_length {n : Nat} (x : Bytes) (a : Nat) (h : x.length = n) : slice x a n = x.drop a := by
  subst h; exact slice_to_end x a

@[simp] theorem length_rep (v : Byte) (n : Nat) : (rep v n).length = n := by simp [rep]

@[simp] theorem length_xorBytes (a b : Bytes) : (xorBytes a b).length = min a.length b.length := by
  simp [xorBytes]

theorem getElem_xorBytes (a b : Bytes) (i : Nat) (h : i < (xorBytes a b).length) :
    (xorBytes a b)[i] = a[i]'(by simp at h; omega) ^^^ b[i]'(by simp at h; omega) := by
  simp [xorBytes]

/-- XOR with the same string twice gives the string back. -/
theorem xorBytes_cancel {a b : Bytes} (h : a.length = b.length) : xorBytes (xorBytes a b) b = a := by
  refine List.ext_getElem (by simp [h]) fun i _ _ => ?_
  simp [getElem_xorBytes]

theorem xorBytes_comm (a b : Bytes) : xorBytes a b = xorBytes b a := by
  refine List.ext_getElem (by simp [Nat.min_comm]) fun i _ _ => ?_
  simp [getElem_xorBytes, BitVec.xor_comm]

theorem xorBytes_append {a b c d : Bytes} (h : a.length = c.length) :
    xorBytes (a ++ b) (c ++ d) = xorBytes a c ++ xorBytes b d := by
  simp [xorBytes, List.zipWith_append h]

theorem xorBytes_self (a : Bytes) : xorBytes a a = rep 0#8 a.length := by
  refine List.ext_getElem (by simp) fun i _ _ => ?_
  simp [getElem_xorBytes, rep]

/-! ## Blocks and the primitive port -/

theorem fit_of_length {n : Nat} {x : Bytes} (h : x.length = n) : fit n x = x := by
  simp [fit, ← h]

@[simp] theorem toList_toBlock {n : Nat} {x : Bytes} (h : x.length = n) : (toBlock n x).toList = x := by
  simp only [toBlock, Vector.toList]
  exact fit_of_length h

@[simp] theorem toBlock_toList {n : Nat} (v : Block n) : toBlock n v.toList = v := by
  apply Vector.toList_inj.mp
  exact toList_toBlock (by simp)

@[simp] theorem length_primPort (P : Primitive) (sel : PrimSelect) (x : Bytes) :
    (primPort P sel x).length = P.B := by
  cases sel <;> simp [primPort]

/-- `PRIM_INVERSE` at the port: `D` takes the reply of `E` back to the block it was asked about. -/
theorem primPort_inverse {P : Primitive} (hP : P.Inverse) {x : Bytes} (h : x.length = P.B) :
    primPort P .d (primPort P .e x) = x := by
  simp [primPort, hP (toBlock P.B x), h]

/-! ## Units -/

theorem cutUnits_append {g : Nat} : ∀ {k : Nat} {a b : Bytes} (m : Nat), a.length = k * g →
    cutUnits g (k + m) (a ++ b) = cutUnits g k a ++ cutUnits g m b
  | 0, a, b, m, h => by
    have ha : a = [] := by simpa using h
    simp [ha, cutUnits]
  | k + 1, a, b, m, h => by
    have hg : g ≤ a.length := by rw [h, Nat.succ_mul]; omega
    rw [Nat.add_right_comm]
    simp only [cutUnits, List.cons_append, List.take_append_of_le_length hg, List.drop_append_of_le_length hg]
    rw [cutUnits_append m (by rw [List.length_drop, h, Nat.succ_mul]; omega)]

/-- Cutting a string that begins with whole units: those units, then the units of the rest. -/
theorem unitsOf_append {g : Nat} {a : Bytes} (b : Bytes) (h : a.length % g = 0) :
    unitsOf g (a ++ b) = unitsOf g a ++ unitsOf g b := by
  rcases Nat.eq_zero_or_pos g with rfl | hg
  · simp [unitsOf, cutUnits]
  · obtain ⟨k, hk⟩ := Nat.dvd_of_mod_eq_zero h
    rw [Nat.mul_comm] at hk
    have : (a ++ b).length / g = k + b.length / g := by
      rw [List.length_append, hk, Nat.mul_comm, Nat.mul_add_div hg]
    have hk' : a.length / g = k := by rw [hk]; exact Nat.mul_div_cancel k hg
    simp only [unitsOf, this, hk', cutUnits_append _ hk]

theorem unitsOf_nil (g : Nat) : unitsOf g [] = [] := by simp [unitsOf, cutUnits]

/-- A string of one unit is that unit. -/
theorem unitsOf_unit {g : Nat} {x : Bytes} (hg : 0 < g) (h : x.length = g) : unitsOf g x = [x] := by
  rw [unitsOf, h, Nat.div_self hg]
  simp [cutUnits, List.take_of_length_le (Nat.le_of_eq h)]

/-- Induction on a string of whole units: the last fact to use about `unitsOf`. -/
theorem units_induction {g : Nat} {motive : Bytes → Prop} (nil : motive [])
    (unit : ∀ x rest : Bytes, x.length = g → rest.length % g = 0 → motive rest → motive (x ++ rest)) :
    ∀ data : Bytes, data.length % g = 0 → motive data := by
  have key : ∀ k : Nat, ∀ data : Bytes, data.length = k * g → motive data := by
    intro k
    induction k with
    | zero => intro data h; rw [show data = [] by simpa using h]; exact nil
    | succ k ih =>
      intro data h
      have hle : g ≤ data.length := by rw [h, Nat.succ_mul]; omega
      have hdrop : (data.drop g).length = k * g := by rw [List.length_drop, h, Nat.succ_mul]; omega
      rw [← List.take_append_drop g data]
      exact unit _ _ (by simp [hle]) (by rw [hdrop]; exact Nat.mul_mod_left k g) (ih _ hdrop)
  intro data h
  obtain ⟨k, hk⟩ := Nat.dvd_of_mod_eq_zero h
  exact key k data (by rw [hk, Nat.mul_comm])

/-- The units of the whole-unit part of a string are all its units. -/
theorem unitsOf_take_whole (g : Nat) (t : Bytes) : unitsOf g (t.take (t.length / g * g)) = unitsOf g t := by
  rcases Nat.eq_zero_or_pos g with rfl | hg
  · simp [unitsOf, cutUnits]
  · have hle : t.length / g * g ≤ t.length := Nat.div_mul_le_self _ _
    have hlen : (t.take (t.length / g * g)).length = t.length / g * g := by simp [hle]
    have hrest : unitsOf g (t.drop (t.length / g * g)) = [] := by
      have hz : (t.drop (t.length / g * g)).length / g = 0 := by
        have hsum := Nat.div_add_mod' t.length g
        have hlt := Nat.mod_lt t.length hg
        rw [List.length_drop, Nat.div_eq_zero_iff]
        omega
      rw [unitsOf, hz, cutUnits]
    conv_rhs => rw [← List.take_append_drop (t.length / g * g) t]
    rw [unitsOf_append _ (by rw [hlen]; exact Nat.mul_mod_left _ g), hrest, List.append_nil]

/-- The units of a longer string: those of its first part, then those of what that part left over and the rest. -/
theorem unitsOf_append_rest (g : Nat) (t y : Bytes) :
    unitsOf g (t ++ y) = unitsOf g t ++ unitsOf g (t.drop (t.length / g * g) ++ y) := by
  have hle : t.length / g * g ≤ t.length := Nat.div_mul_le_self _ _
  conv_lhs => rw [← List.take_append_drop (t.length / g * g) t, List.append_assoc]
  rw [unitsOf_append _ (by simp [hle]), unitsOf_take_whole]

end Sys2Proof.Machine
end

