-- ==== Sys2Proof/Laws/State.lean ====
section
/-! SUPPORT. One lemma per field per named update of the state, so that no later proof unfolds an update. -/

namespace Sys2Proof.Machine

@[simp] theorem respond_fsm (e : Err) (v : Bytes) (s : State) : (respond e v s).fsm = s.fsm := rfl
@[simp] theorem respond_cfg (e : Err) (v : Bytes) (s : State) : (respond e v s).cfg = s.cfg := rfl
@[simp] theorem respond_regR (e : Err) (v : Bytes) (s : State) : (respond e v s).regR = s.regR := rfl
@[simp] theorem respond_regS (e : Err) (v : Bytes) (s : State) : (respond e v s).regS = s.regS := rfl
@[simp] theorem respond_sValid (e : Err) (v : Bytes) (s : State) : (respond e v s).sValid = s.sValid := rfl
@[simp] theorem respond_buf (e : Err) (v : Bytes) (s : State) : (respond e v s).buf = s.buf := rfl
@[simp] theorem respond_lastErr (e : Err) (v : Bytes) (s : State) : (respond e v s).lastErr = e := rfl
@[simp] theorem respond_out (e : Err) (v : Bytes) (s : State) : (respond e v s).out = [] := rfl
@[simp] theorem respond_input (e : Err) (v : Bytes) (s : State) : (respond e v s).input = s.input := rfl
@[simp] theorem respond_responses (e : Err) (v : Bytes) (s : State) : (respond e v s).responses = s.responses ++ [{ status := statusWord (respond e v s), outLen := BitVec.ofNat 32 v.length, out := v }] := rfl

@[simp] theorem openOutput_fsm (s : State) : (openOutput s).fsm = s.fsm := rfl
@[simp] theorem openOutput_cfg (s : State) : (openOutput s).cfg = s.cfg := rfl
@[simp] theorem openOutput_regR (s : State) : (openOutput s).regR = s.regR := rfl
@[simp] theorem openOutput_regS (s : State) : (openOutput s).regS = s.regS := rfl
@[simp] theorem openOutput_sValid (s : State) : (openOutput s).sValid = s.sValid := rfl
@[simp] theorem openOutput_buf (s : State) : (openOutput s).buf = s.buf := rfl
@[simp] theorem openOutput_lastErr (s : State) : (openOutput s).lastErr = s.lastErr := rfl
@[simp] theorem openOutput_out (s : State) : (openOutput s).out = [] := rfl
@[simp] theorem openOutput_input (s : State) : (openOutput s).input = s.input := rfl
@[simp] theorem openOutput_responses (s : State) : (openOutput s).responses = s.responses := rfl

@[simp] theorem emit_fsm (v : Bytes) (s : State) : (emit v s).fsm = s.fsm := rfl
@[simp] theorem emit_cfg (v : Bytes) (s : State) : (emit v s).cfg = s.cfg := rfl
@[simp] theorem emit_regR (v : Bytes) (s : State) : (emit v s).regR = s.regR := rfl
@[simp] theorem emit_regS (v : Bytes) (s : State) : (emit v s).regS = s.regS := rfl
@[simp] theorem emit_sValid (v : Bytes) (s : State) : (emit v s).sValid = s.sValid := rfl
@[simp] theorem emit_buf (v : Bytes) (s : State) : (emit v s).buf = s.buf := rfl
@[simp] theorem emit_lastErr (v : Bytes) (s : State) : (emit v s).lastErr = s.lastErr := rfl
@[simp] theorem emit_out (v : Bytes) (s : State) : (emit v s).out = s.out ++ v := rfl
@[simp] theorem emit_input (v : Bytes) (s : State) : (emit v s).input = s.input := rfl
@[simp] theorem emit_responses (v : Bytes) (s : State) : (emit v s).responses = s.responses := rfl

@[simp] theorem takeSnapshot_fsm (s : State) : (takeSnapshot s).fsm = s.fsm := rfl
@[simp] theorem takeSnapshot_cfg (s : State) : (takeSnapshot s).cfg = s.cfg := rfl
@[simp] theorem takeSnapshot_regR (s : State) : (takeSnapshot s).regR = s.regR := rfl
@[simp] theorem takeSnapshot_regS (s : State) : (takeSnapshot s).regS = s.regR := rfl
@[simp] theorem takeSnapshot_sValid (s : State) : (takeSnapshot s).sValid = true := rfl
@[simp] theorem takeSnapshot_buf (s : State) : (takeSnapshot s).buf = s.buf := rfl
@[simp] theorem takeSnapshot_lastErr (s : State) : (takeSnapshot s).lastErr = s.lastErr := rfl
@[simp] theorem takeSnapshot_out (s : State) : (takeSnapshot s).out = s.out := rfl
@[simp] theorem takeSnapshot_input (s : State) : (takeSnapshot s).input = s.input := rfl
@[simp] theorem takeSnapshot_responses (s : State) : (takeSnapshot s).responses = s.responses := rfl

@[simp] theorem restoreSnapshot_fsm (s : State) : (restoreSnapshot s).fsm = s.fsm := rfl
@[simp] theorem restoreSnapshot_cfg (s : State) : (restoreSnapshot s).cfg = s.cfg := rfl
@[simp] theorem restoreSnapshot_regR (s : State) : (restoreSnapshot s).regR = s.regS := rfl
@[simp] theorem restoreSnapshot_regS (s : State) : (restoreSnapshot s).regS = s.regS := rfl
@[simp] theorem restoreSnapshot_sValid (s : State) : (restoreSnapshot s).sValid = s.sValid := rfl
@[simp] theorem restoreSnapshot_buf (s : State) : (restoreSnapshot s).buf = s.buf := rfl
@[simp] theorem restoreSnapshot_lastErr (s : State) : (restoreSnapshot s).lastErr = s.lastErr := rfl
@[simp] theorem restoreSnapshot_out (s : State) : (restoreSnapshot s).out = s.out := rfl
@[simp] theorem restoreSnapshot_input (s : State) : (restoreSnapshot s).input = s.input := rfl
@[simp] theorem restoreSnapshot_responses (s : State) : (restoreSnapshot s).responses = s.responses := rfl

@[simp] theorem applyUnit_fsm (u : UnitResult) (s : State) : (applyUnit u s).fsm = s.fsm := rfl
@[simp] theorem applyUnit_cfg (u : UnitResult) (s : State) : (applyUnit u s).cfg = s.cfg := rfl
@[simp] theorem applyUnit_regR (u : UnitResult) (s : State) : (applyUnit u s).regR = u.nextR := rfl
@[simp] theorem applyUnit_regS (u : UnitResult) (s : State) : (applyUnit u s).regS = s.regS := rfl
@[simp] theorem applyUnit_sValid (u : UnitResult) (s : State) : (applyUnit u s).sValid = s.sValid := rfl
@[simp] theorem applyUnit_buf (u : UnitResult) (s : State) : (applyUnit u s).buf = s.buf := rfl
@[simp] theorem applyUnit_lastErr (u : UnitResult) (s : State) : (applyUnit u s).lastErr = s.lastErr := rfl
@[simp] theorem applyUnit_out (u : UnitResult) (s : State) : (applyUnit u s).out = s.out ++ u.y := rfl
@[simp] theorem applyUnit_input (u : UnitResult) (s : State) : (applyUnit u s).input = s.input := rfl
@[simp] theorem applyUnit_responses (u : UnitResult) (s : State) : (applyUnit u s).responses = s.responses := rfl

@[simp] theorem hardwareReset_fsm (B : Nat) (s : State) : (hardwareReset B s).fsm = .uninit := rfl
@[simp] theorem hardwareReset_cfg (B : Nat) (s : State) : (hardwareReset B s).cfg = { dir := .enc, mode := .ecb, pad := .noPadding, w := 0#8 } := rfl
@[simp] theorem hardwareReset_regR (B : Nat) (s : State) : (hardwareReset B s).regR = List.replicate B 0#8 := rfl
@[simp] theorem hardwareReset_regS (B : Nat) (s : State) : (hardwareReset B s).regS = List.replicate B 0#8 := rfl
@[simp] theorem hardwareReset_sValid (B : Nat) (s : State) : (hardwareReset B s).sValid = false := rfl
@[simp] theorem hardwareReset_buf (B : Nat) (s : State) : (hardwareReset B s).buf = [] := rfl
@[simp] theorem hardwareReset_lastErr (B : Nat) (s : State) : (hardwareReset B s).lastErr = .ok := rfl
@[simp] theorem hardwareReset_out (B : Nat) (s : State) : (hardwareReset B s).out = [] := rfl
@[simp] theorem hardwareReset_input (B : Nat) (s : State) : (hardwareReset B s).input = s.input := rfl
@[simp] theorem hardwareReset_responses (B : Nat) (s : State) : (hardwareReset B s).responses = s.responses := rfl

@[simp] theorem bindMode_fsm (B : Nat) (c : Cfg) (iv : Bytes) (s : State) : (bindMode B c iv s).fsm = .initialized := rfl
@[simp] theorem bindMode_cfg (B : Nat) (c : Cfg) (iv : Bytes) (s : State) : (bindMode B c iv s).cfg = c := rfl
@[simp] theorem bindMode_regR (B : Nat) (c : Cfg) (iv : Bytes) (s : State) : (bindMode B c iv s).regR = initialRegister B c.mode iv := rfl
@[simp] theorem bindMode_regS (B : Nat) (c : Cfg) (iv : Bytes) (s : State) : (bindMode B c iv s).regS = initialRegister B c.mode iv := rfl
@[simp] theorem bindMode_sValid (B : Nat) (c : Cfg) (iv : Bytes) (s : State) : (bindMode B c iv s).sValid = true := rfl
@[simp] theorem bindMode_buf (B : Nat) (c : Cfg) (iv : Bytes) (s : State) : (bindMode B c iv s).buf = [] := rfl
@[simp] theorem bindMode_lastErr (B : Nat) (c : Cfg) (iv : Bytes) (s : State) : (bindMode B c iv s).lastErr = s.lastErr := rfl
@[simp] theorem bindMode_out (B : Nat) (c : Cfg) (iv : Bytes) (s : State) : (bindMode B c iv s).out = s.out := rfl
@[simp] theorem bindMode_input (B : Nat) (c : Cfg) (iv : Bytes) (s : State) : (bindMode B c iv s).input = s.input := rfl
@[simp] theorem bindMode_responses (B : Nat) (c : Cfg) (iv : Bytes) (s : State) : (bindMode B c iv s).responses = s.responses := rfl

/-! `complete` and `raise` are `respond`. -/

theorem complete_eq (s : State) : complete s = respond .ok s.out s := rfl
theorem raise_eq (e : Err) (s : State) : raise e s = respond e [] s := rfl

@[simp] theorem complete_fsm (s : State) : (complete s).fsm = s.fsm := rfl
@[simp] theorem complete_cfg (s : State) : (complete s).cfg = s.cfg := rfl
@[simp] theorem complete_regR (s : State) : (complete s).regR = s.regR := rfl
@[simp] theorem complete_regS (s : State) : (complete s).regS = s.regS := rfl
@[simp] theorem complete_sValid (s : State) : (complete s).sValid = s.sValid := rfl
@[simp] theorem complete_buf (s : State) : (complete s).buf = s.buf := rfl
@[simp] theorem complete_lastErr (s : State) : (complete s).lastErr = .ok := rfl
@[simp] theorem complete_out (s : State) : (complete s).out = [] := rfl
@[simp] theorem complete_input (s : State) : (complete s).input = s.input := rfl
@[simp] theorem complete_responses (s : State) : (complete s).responses = s.responses ++ [{ status := statusWord (complete s), outLen := BitVec.ofNat 32 s.out.length, out := s.out }] := rfl

@[simp] theorem raise_fsm (e : Err) (s : State) : (raise e s).fsm = s.fsm := rfl
@[simp] theorem raise_cfg (e : Err) (s : State) : (raise e s).cfg = s.cfg := rfl
@[simp] theorem raise_regR (e : Err) (s : State) : (raise e s).regR = s.regR := rfl
@[simp] theorem raise_regS (e : Err) (s : State) : (raise e s).regS = s.regS := rfl
@[simp] theorem raise_sValid (e : Err) (s : State) : (raise e s).sValid = s.sValid := rfl
@[simp] theorem raise_buf (e : Err) (s : State) : (raise e s).buf = s.buf := rfl
@[simp] theorem raise_lastErr (e : Err) (s : State) : (raise e s).lastErr = e := rfl
@[simp] theorem raise_out (e : Err) (s : State) : (raise e s).out = [] := rfl
@[simp] theorem raise_input (e : Err) (s : State) : (raise e s).input = s.input := rfl
@[simp] theorem raise_responses (e : Err) (s : State) : (raise e s).responses = s.responses ++ [{ status := statusWord (raise e s), outLen := BitVec.ofNat 32 ([] : Bytes).length, out := [] }] := rfl

/-! `ModeOp` writes `R` and the output only (40_dispatcher.md R103, R105). -/

@[simp] theorem modeOp_fsm (P : Primitive) (dec : Bool) (data : Bytes) (s : State) :
    (modeOp P dec data s).fsm = s.fsm := rfl
@[simp] theorem modeOp_cfg (P : Primitive) (dec : Bool) (data : Bytes) (s : State) :
    (modeOp P dec data s).cfg = s.cfg := rfl
@[simp] theorem modeOp_regR (P : Primitive) (dec : Bool) (data : Bytes) (s : State) :
    (modeOp P dec data s).regR = (modeRun P s.cfg dec (unitsOf (granularity P.B s.cfg) data) s.regR).nextR := rfl
@[simp] theorem modeOp_regS (P : Primitive) (dec : Bool) (data : Bytes) (s : State) :
    (modeOp P dec data s).regS = s.regS := rfl
@[simp] theorem modeOp_sValid (P : Primitive) (dec : Bool) (data : Bytes) (s : State) :
    (modeOp P dec data s).sValid = s.sValid := rfl
@[simp] theorem modeOp_buf (P : Primitive) (dec : Bool) (data : Bytes) (s : State) :
    (modeOp P dec data s).buf = s.buf := rfl
@[simp] theorem modeOp_lastErr (P : Primitive) (dec : Bool) (data : Bytes) (s : State) :
    (modeOp P dec data s).lastErr = s.lastErr := rfl
@[simp] theorem modeOp_out (P : Primitive) (dec : Bool) (data : Bytes) (s : State) :
    (modeOp P dec data s).out = s.out ++ (modeRun P s.cfg dec (unitsOf (granularity P.B s.cfg) data) s.regR).y := rfl
@[simp] theorem modeOp_input (P : Primitive) (dec : Bool) (data : Bytes) (s : State) :
    (modeOp P dec data s).input = s.input := rfl
@[simp] theorem modeOp_responses (P : Primitive) (dec : Bool) (data : Bytes) (s : State) :
    (modeOp P dec data s).responses = s.responses := rfl

/-! `UpdatePart` writes `R`, `BUF`, `FSM` and the output (47_accumulator.md R204). -/

@[simp] theorem updatePart_cfg (P : Primitive) (data : Bytes) (s : State) : (updatePart P data s).cfg = s.cfg := rfl
@[simp] theorem updatePart_regS (P : Primitive) (data : Bytes) (s : State) : (updatePart P data s).regS = s.regS := rfl
@[simp] theorem updatePart_sValid (P : Primitive) (data : Bytes) (s : State) : (updatePart P data s).sValid = s.sValid := rfl
@[simp] theorem updatePart_lastErr (P : Primitive) (data : Bytes) (s : State) : (updatePart P data s).lastErr = s.lastErr := rfl
@[simp] theorem updatePart_input (P : Primitive) (data : Bytes) (s : State) : (updatePart P data s).input = s.input := rfl
@[simp] theorem updatePart_responses (P : Primitive) (data : Bytes) (s : State) : (updatePart P data s).responses = s.responses := rfl
@[simp] theorem updatePart_fsm (P : Primitive) (data : Bytes) (s : State) : (updatePart P data s).fsm = .updating := rfl

/-! What a host sees of a response. -/

@[simp] theorem lastOut_respond (e : Err) (v : Bytes) (s : State) : lastOut (respond e v s) = v := by
  simp [lastOut]

@[simp] theorem lastOut_complete (s : State) : lastOut (complete s) = s.out := by
  simp [complete_eq]

@[simp] theorem lastOut_raise (e : Err) (s : State) : lastOut (raise e s) = [] := by
  simp [raise_eq]

/-! `bare` forgets the three model's fields. -/

@[simp] theorem bare_fsm (s : State) : (bare s).fsm = s.fsm := rfl
@[simp] theorem bare_cfg (s : State) : (bare s).cfg = s.cfg := rfl
@[simp] theorem bare_regR (s : State) : (bare s).regR = s.regR := rfl
@[simp] theorem bare_regS (s : State) : (bare s).regS = s.regS := rfl
@[simp] theorem bare_sValid (s : State) : (bare s).sValid = s.sValid := rfl
@[simp] theorem bare_buf (s : State) : (bare s).buf = s.buf := rfl
@[simp] theorem bare_lastErr (s : State) : (bare s).lastErr = s.lastErr := rfl
@[simp] theorem bare_out (s : State) : (bare s).out = [] := rfl
@[simp] theorem bare_input (s : State) : (bare s).input = [] := rfl
@[simp] theorem bare_responses (s : State) : (bare s).responses = [] := rfl

end Sys2Proof.Machine
end

