-- ==== Sys2Proof/Laws/Modes.lean ====
section
/-! SUPPORT. Laws of the unit steps and of `ModeOp`: lengths, cutting a run in two, and the round trip of one unit. -/

namespace Sys2Proof.Machine

/-- A configuration as a successful INIT leaves it: its width is legal (10_state.md R34 item 6). -/
structure CfgLegal (B : Nat) (cfg : Cfg) : Prop where
  range : cfg.mode = .cfb → 1 ≤ cfg.w.toNat ∧ cfg.w.toNat ≤ B
  zero : cfg.mode ≠ .cfb → cfg.w = 0#8

theorem Inv.cfgLegal {B : Nat} {s : State} (h : Inv B s) (hf : s.fsm ≠ .uninit) : CfgLegal B s.cfg :=
  ⟨fun hm => h.widthRange hm hf, h.widthZero⟩

/-- `1 <= g <= B` (40_dispatcher.md R102). -/
theorem granularity_bounds {B : Nat} {cfg : Cfg} (hB : 1 ≤ B) (h : CfgLegal B cfg) :
    1 ≤ granularity B cfg ∧ granularity B cfg ≤ B := by
  unfold granularity
  cases hm : cfg.mode <;> simp only
  case cfb => exact h.range hm
  all_goals omega

theorem granularity_le {B : Nat} {cfg : Cfg} (h : CfgLegal B cfg) : granularity B cfg ≤ B := by
  unfold granularity
  cases hm : cfg.mode <;> simp only
  case cfb => exact (h.range hm).2
  all_goals omega

/-- Every unit step returns as many bytes as it takes (R103). -/
theorem length_unitStep_y {P : Primitive} {cfg : Cfg} (dec : Bool) {r x : Bytes} (hc : CfgLegal P.B cfg)
    (hr : r.length = P.B) (hx : x.length = granularity P.B cfg) : (unitStep P cfg dec r x).y.length = x.length := by
  have hle := granularity_le hc
  cases hm : cfg.mode <;> cases dec <;> simp only [granularity, hm] at hx hle <;>
    simp [unitStep, hm, ecbEncStep, ecbDecStep, cbcEncStep, cbcDecStep, cfbEncStep, cfbDecStep, ofbStep, hx, hr] <;>
    omega

/-- Every unit step leaves `R` a block (10_state.md R25). -/
theorem length_unitStep_nextR {P : Primitive} {cfg : Cfg} (dec : Bool) {r x : Bytes} (hc : CfgLegal P.B cfg)
    (hr : r.length = P.B) (hx : x.length = granularity P.B cfg) : (unitStep P cfg dec r x).nextR.length = P.B := by
  have hle := granularity_le hc
  cases hm : cfg.mode <;> cases dec <;> simp only [granularity, hm] at hx hle <;>
    simp [unitStep, hm, ecbEncStep, ecbDecStep, cbcEncStep, cbcDecStep, cfbEncStep, cfbDecStep, ofbStep, shiftIn,
      slice, hx, hr] <;>
    omega

/-- Running two lists of units is running the first, then the second from where `R` stands (R61). -/
theorem modeRun_append (P : Primitive) (cfg : Cfg) (dec : Bool) (us vs : List Bytes) (r : Bytes) :
    modeRun P cfg dec (us ++ vs) r =
      { nextR := (modeRun P cfg dec vs (modeRun P cfg dec us r).nextR).nextR
        y := (modeRun P cfg dec us r).y ++ (modeRun P cfg dec vs (modeRun P cfg dec us r).nextR).y } := by
  induction us generalizing r with
  | nil => simp [modeRun]
  | cons x us ih => simp [modeRun, ih]

theorem modeRun_unit {P : Primitive} {cfg : Cfg} (dec : Bool) {x : Bytes} (r : Bytes)
    (hg : 0 < granularity P.B cfg) (hx : x.length = granularity P.B cfg) :
    modeRun P cfg dec (unitsOf (granularity P.B cfg) x) r = unitStep P cfg dec r x := by
  simp [unitsOf_unit hg hx, modeRun]

/-- One more unit in front. -/
theorem modeRun_cons {P : Primitive} {cfg : Cfg} (dec : Bool) {x : Bytes} (rest r : Bytes)
    (hg : 0 < granularity P.B cfg) (hx : x.length = granularity P.B cfg) :
    modeRun P cfg dec (unitsOf (granularity P.B cfg) (x ++ rest)) r =
      { nextR := (modeRun P cfg dec (unitsOf (granularity P.B cfg) rest) (unitStep P cfg dec r x).nextR).nextR
        y := (unitStep P cfg dec r x).y ++
          (modeRun P cfg dec (unitsOf (granularity P.B cfg) rest) (unitStep P cfg dec r x).nextR).y } := by
  rw [unitsOf_append _ (by rw [hx]; exact Nat.mod_self _), modeRun_append, modeRun_unit dec r hg hx]

/-- `|ModeOp(dec, data)| = |data|`, and `R` stays a block (R103). -/
theorem length_modeRun {P : Primitive} {cfg : Cfg} (dec : Bool) (hc : CfgLegal P.B cfg) {data : Bytes}
    (hd : data.length % granularity P.B cfg = 0) {r : Bytes} (hr : r.length = P.B) :
    (modeRun P cfg dec (unitsOf (granularity P.B cfg) data) r).y.length = data.length ∧
      (modeRun P cfg dec (unitsOf (granularity P.B cfg) data) r).nextR.length = P.B := by
  have hg : 0 < granularity P.B cfg := (granularity_bounds P.bounds.1 hc).1
  refine units_induction (motive := fun data => ∀ r : Bytes, r.length = P.B →
    (modeRun P cfg dec (unitsOf (granularity P.B cfg) data) r).y.length = data.length ∧
      (modeRun P cfg dec (unitsOf (granularity P.B cfg) data) r).nextR.length = P.B) ?nil ?unit data hd r hr
  case nil => intro r hr; simp [unitsOf_nil, modeRun, hr]
  case unit =>
    intro x rest hx _ ih r hr
    obtain ⟨hy, hn⟩ := ih _ (length_unitStep_nextR dec hc hr hx)
    rw [modeRun_cons dec rest r hg hx]
    simp [hy, hn, length_unitStep_y dec hc hr hx]

/-- The same of any string: its whole units are run, the rest is not. -/
theorem length_modeRun_any {P : Primitive} {cfg : Cfg} (dec : Bool) (hc : CfgLegal P.B cfg) (t : Bytes) {r : Bytes}
    (hr : r.length = P.B) :
    (modeRun P cfg dec (unitsOf (granularity P.B cfg) t) r).y.length =
        t.length / granularity P.B cfg * granularity P.B cfg ∧
      (modeRun P cfg dec (unitsOf (granularity P.B cfg) t) r).nextR.length = P.B := by
  have hl : (t.take (t.length / granularity P.B cfg * granularity P.B cfg)).length =
      t.length / granularity P.B cfg * granularity P.B cfg := by simp [Nat.div_mul_le_self]
  rw [← unitsOf_take_whole]
  have := length_modeRun dec hc (data := t.take _) (by rw [hl]; exact Nat.mul_mod_left _ _) hr
  rwa [hl] at this

/-- `R` stays a block under any data command. -/
theorem length_modeOp_regR {P : Primitive} (dec : Bool) {data : Bytes} {s : State} (hc : CfgLegal P.B s.cfg)
    (hd : data.length % granularity P.B s.cfg = 0) (hr : s.regR.length = P.B) :
    (modeOp P dec data s).regR.length = P.B := (length_modeRun dec hc hd hr).2

/-- `ModeOp` over `a ++ b` is `ModeOp` over `a`, then over `b` (20_memory.md R61). -/
theorem modeOp_append {P : Primitive} (dec : Bool) {a : Bytes} (b : Bytes) {s : State}
    (h : a.length % granularity P.B s.cfg = 0) :
    modeOp P dec (a ++ b) s = modeOp P dec b (modeOp P dec a s) := by
  simp [modeOp, unitsOf_append b h, modeRun_append, applyUnit]

/-- No ECB step writes the register (41_ecb.md R120). -/
theorem modeRun_ecb_nextR {P : Primitive} {cfg : Cfg} (hm : cfg.mode = .ecb) (dec : Bool) (us : List Bytes) (r : Bytes) :
    (modeRun P cfg dec us r).nextR = r := by
  induction us generalizing r with
  | nil => rfl
  | cons x us ih => cases dec <;> simp [modeRun, unitStep, hm, ih, ecbEncStep, ecbDecStep]

/-- Decrypting what one unit step encrypted, from the same register: the unit comes back and both sides hold the same
register (40_dispatcher.md R111 item 1). -/
theorem unitStep_roundTrip {P : Primitive} {cfg : Cfg} (hP : cfg.mode = .ecb ∨ cfg.mode = .cbc → P.Inverse)
    (hc : CfgLegal P.B cfg) {r x : Bytes} (hr : r.length = P.B) (hx : x.length = granularity P.B cfg) :
    unitStep P cfg true r (unitStep P cfg false r x).y =
      { nextR := (unitStep P cfg false r x).nextR, y := x } := by
  have hle := granularity_le hc
  cases hm : cfg.mode <;> simp only [granularity, hm] at hx hle
  · simp [unitStep, hm, ecbEncStep, ecbDecStep, primPort_inverse (hP (.inl hm)) hx]
  · have hxr : (xorBytes x r).length = P.B := by simp [hx, hr]
    simp [unitStep, hm, cbcEncStep, cbcDecStep, primPort_inverse (hP (.inr hm)) hxr,
      xorBytes_cancel (hx.trans hr.symm)]
  · have hk : ((primPort P .e r).take cfg.w.toNat).length = x.length := by simp [hx]; omega
    simp [unitStep, hm, cfbEncStep, cfbDecStep]
    rw [xorBytes_comm ((primPort P .e r).take _) x, xorBytes_comm, xorBytes_cancel hk.symm]
  · simp [unitStep, hm, ofbStep]
    exact xorBytes_cancel (by simp [hx])

/-- The same of a whole run. -/
theorem modeRun_roundTrip {P : Primitive} {cfg : Cfg} (hP : cfg.mode = .ecb ∨ cfg.mode = .cbc → P.Inverse)
    (hc : CfgLegal P.B cfg) {data : Bytes} (hd : data.length % granularity P.B cfg = 0) {r : Bytes}
    (hr : r.length = P.B) :
    modeRun P cfg true
        (unitsOf (granularity P.B cfg) (modeRun P cfg false (unitsOf (granularity P.B cfg) data) r).y) r =
      { nextR := (modeRun P cfg false (unitsOf (granularity P.B cfg) data) r).nextR, y := data } := by
  have hg := (granularity_bounds P.bounds.1 hc).1
  refine units_induction (motive := fun data => ∀ r : Bytes, r.length = P.B →
    modeRun P cfg true
        (unitsOf (granularity P.B cfg) (modeRun P cfg false (unitsOf (granularity P.B cfg) data) r).y) r =
      { nextR := (modeRun P cfg false (unitsOf (granularity P.B cfg) data) r).nextR, y := data }) ?nil ?unit data hd r hr
  case nil => intro r _; simp [unitsOf_nil, modeRun]
  case unit =>
    intro x rest hx _ ih r hr
    rw [modeRun_cons false rest r hg hx]
    simp only
    rw [modeRun_cons true _ r hg (by rw [length_unitStep_y false hc hr hx, hx]), unitStep_roundTrip hP hc hr hx]
    simp only
    rw [ih _ (length_unitStep_nextR false hc hr hx)]

end Sys2Proof.Machine
end

