-- ==== Sys2Proof/Laws/Padding.lean ====
section
/-! SUPPORT. Laws of the padding unit. -/

namespace Sys2Proof.Machine

/-- A fold of conjunctions is the conjunction over the list. -/
theorem foldl_and_eq_true {α : Type} (f : α → Bool) (xs : List α) (b : Bool) :
    xs.foldl (fun acc i => acc && f i) b = true ↔ b = true ∧ ∀ i ∈ xs, f i = true := by
  induction xs generalizing b with
  | nil => simp
  | cons x xs ih => simp [ih, and_assoc]

/-- `PadBytesOk(L, n)` is the conjunction over the claimed padding positions (46_padding.md R185). -/
theorem padBytesOk_iff {B n : Nat} {l : Bytes} (hn : n ≤ B) :
    padBytesOk B l n = true ↔ ∀ i, B - n ≤ i → i < B → (l.getD i 0#8).toNat = n := by
  simp only [padBytesOk, hn, if_true, foldl_and_eq_true, List.mem_range, Bool.or_eq_true, decide_eq_true_eq,
    beq_iff_eq, true_and]
  exact ⟨fun h i hlo hi => (h i hi).resolve_left (by omega), fun h i hi => by
    rcases Nat.lt_or_ge i (B - n) with hlt | hge
    · exact .inl hlt
    · exact .inr (h i hge hi)⟩

/-- For a partial block the padded string is one block (R181). -/
theorem length_padPkcs5 {B : Nat} {b : Bytes} (h : b.length < B) : (padPkcs5 B b).length = B := by
  simp [padPkcs5, Nat.mod_eq_of_lt h]
  omega

/-- For a whole block a second one is added (R182). -/
theorem length_padPkcs5_full {B : Nat} {b : Bytes} (h : b.length = B) : (padPkcs5 B b).length = 2 * B := by
  simp [padPkcs5, h]
  omega

/-- What `unpad` removes is 1 to `B` bytes (20_memory.md R59). -/
theorem length_unpadPkcs5 {B : Nat} {l body : Bytes} (hl : l.length = B) (h : unpadPkcs5 B l = some body) :
    body.length < B ∧ body = l.take body.length := by
  simp only [unpadPkcs5] at h
  split at h
  · rename_i hok
    simp only [Bool.and_eq_true, decide_eq_true_eq] at hok
    obtain rfl := Option.some.inj h
    refine ⟨?_, by simp⟩
    rw [List.length_take]
    omega
  · cases h

end Sys2Proof.Machine
end

