-- ==== Sys2Proof/Laws/Exec.lean ====
section
/-! SUPPORT. Everything each command can do, said once: if it answers a next state, it is one of the states listed. -/

namespace Sys2Proof.Machine

/-- Nothing is left over exactly when the length is a multiple of the granularity. -/
theorem drop_whole_eq_nil {t : Bytes} {g : Nat} : t.drop (t.length / g * g) = [] ↔ t.length % g = 0 := by
  rw [List.drop_eq_nil_iff]
  have := Nat.div_add_mod' t.length g
  omega

/-- `UpdatePart` in one equation (47_accumulator.md R204): the units of `BUF ++ data` run from `R`, the rest kept. -/
theorem updatePart_eq (P : Primitive) (data : Bytes) (s : State) :
    updatePart P data s =
      let t := s.buf ++ data
      let g := granularity P.B s.cfg
      let run := modeRun P s.cfg (decide (s.cfg.dir = .dec)) (unitsOf g t) s.regR
      { s with regR := run.nextR, buf := t.drop (t.length / g * g), fsm := .updating, out := s.out ++ run.y } := by
  simp only [updatePart, slice_zero, slice_to_end, modeOp, unitsOf_take_whole, applyUnit]

/-- Two update parts are one over both strings: what the first leaves in `BUF` is cut with the second (20_memory.md R65). -/
theorem updatePart_updatePart (P : Primitive) (x y : Bytes) (s : State) :
    updatePart P y (updatePart P x s) = updatePart P (x ++ y) s := by
  rw [updatePart_eq, updatePart_eq, updatePart_eq]
  simp only [← List.append_assoc]
  generalize s.buf ++ x = t
  simp only [unitsOf_append_rest (granularity P.B s.cfg) t y, modeRun_append, List.append_assoc, State.mk.injEq,
    and_true, true_and]
  generalize granularity P.B s.cfg = g
  have hle : t.length / g * g ≤ t.length := Nat.div_mul_le_self _ _
  have hlen : (t.drop (t.length / g * g) ++ y).length / g * g + t.length / g * g = (t ++ y).length / g * g := by
    rcases Nat.eq_zero_or_pos g with h | h
    · simp [h]
    · have : (t ++ y).length = (t.drop (t.length / g * g) ++ y).length + g * (t.length / g) := by
        simp only [List.length_append, List.length_drop]
        rw [Nat.mul_comm g]
        omega
      rw [this, Nat.add_mul_div_left _ _ h, Nat.add_mul]
  rw [← hlen, Nat.add_comm, ← List.drop_drop, List.drop_append_of_le_length hle]

theorem ivAccepted_iff (B : Nat) (mode : Mode) (iv : Bytes) : ivAccepted B mode iv = true ↔ IvLegal B mode iv := by
  cases mode <;> simp [ivAccepted, IvLegal]

theorem runUnit_next {B : Nat} {mode : Mode} {x : Bytes} {u : UnitResult} {s t : State}
    (h : runUnit B mode x u s = .next t) : unitSelected B mode x s = true ∧ t = applyUnit u s := by
  unfold runUnit at h
  split at h
  · cases h; exact ⟨‹_›, rfl⟩
  · cases h

theorem runUnit_selected {B : Nat} {mode : Mode} {x : Bytes} (u : UnitResult) {s : State}
    (hm : s.cfg.mode = mode) (hx : x.length = granularity B s.cfg) : runUnit B mode x u s = .next (applyUnit u s) := by
  simp [runUnit, unitSelected, hm, hx]

theorem directCommand_next {P : Primitive} {dec : Bool} {data : Bytes} {s t : State}
    (h : directCommand P dec data s = .next t) :
    (s.fsm = .uninit ∧ t = raise .illegalState s) ∨
    (s.fsm ≠ .uninit ∧ data.length % granularity P.B s.cfg ≠ 0 ∧ t = raise .unalignedLength s) ∨
    (s.fsm ≠ .uninit ∧ data.length % granularity P.B s.cfg = 0 ∧ t = complete (modeOp P dec data (openOutput s))) := by
  unfold directCommand at h
  split at h
  · cases h; exact .inl ⟨‹_›, rfl⟩
  · split at h
    · cases h; exact .inr (.inl ⟨‹_›, ‹_›, rfl⟩)
    · cases h; exact .inr (.inr ⟨‹_›, Decidable.not_not.mp ‹_›, rfl⟩)

theorem execSave_next {s t : State} (h : execSave s = .next t) :
    (s.fsm = .uninit ∧ t = raise .illegalState s) ∨
    (s.fsm ≠ .uninit ∧ t = complete (takeSnapshot (openOutput s))) := by
  unfold execSave at h
  split at h
  · cases h; exact .inl ⟨‹_›, rfl⟩
  · cases h; exact .inr ⟨‹_›, rfl⟩

theorem execRestore_next {s t : State} (h : execRestore s = .next t) :
    (s.sValid = false ∧ t = raise .noSavedState s) ∨
    (s.sValid = true ∧ t = complete (restoreSnapshot (openOutput s))) := by
  unfold execRestore at h
  split at h
  · cases h; exact .inl ⟨‹_›, rfl⟩
  · cases h; exact .inr ⟨by simpa using ‹¬ s.sValid = false›, rfl⟩

theorem execReset_next {s t : State} (h : execReset s = .next t) :
    (s.fsm = .uninit ∧ t = raise .illegalState s) ∨
    (s.fsm ≠ .uninit ∧
      t = complete { restoreSnapshot (openOutput s) with buf := [], fsm := .initialized }) := by
  unfold execReset at h
  split at h
  · cases h; exact .inl ⟨‹_›, rfl⟩
  · cases h; exact .inr ⟨‹_›, rfl⟩

theorem initCommand_next {B : Nat} {cfg : Cfg} {iv : Bytes} {s t : State} (h : initCommand B cfg iv s = .next t) :
    (ivAccepted B cfg.mode iv = false ∧ t = raise .invalidIv s) ∨
    (ivAccepted B cfg.mode iv = true ∧ t = complete (bindMode B cfg iv (openOutput s))) := by
  unfold initCommand at h
  split at h
  · cases h; exact .inr ⟨‹_›, rfl⟩
  · cases h; exact .inl ⟨by simpa using ‹¬ ivAccepted B cfg.mode iv = true›, rfl⟩

theorem updateCommand_next {P : Primitive} {data : Bytes} {s t : State} (h : updateCommand P data s = .next t) :
    (s.fsm = .uninit ∧ t = raise .illegalState s) ∨
    (s.fsm ≠ .uninit ∧ t = complete (updatePart P data (openOutput s))) := by
  unfold updateCommand at h
  split at h
  · cases h; exact .inl ⟨‹_›, rfl⟩
  · cases h; exact .inr ⟨‹_›, rfl⟩

theorem dofinalCommand_next {P : Primitive} {data : Bytes} {s t : State} (h : dofinalCommand P data s = .next t) :
    (s.fsm = .uninit ∧ t = raise .illegalState s) ∨
    (s.fsm ≠ .uninit ∧ ∃ e, finalPart P (updatePart P data (openOutput s)) = .error e ∧
      t = raise e (updatePart P data (openOutput s))) ∨
    (s.fsm ≠ .uninit ∧ ∃ u, finalPart P (updatePart P data (openOutput s)) = .ok u ∧
      t = complete { u with fsm := .finalized }) := by
  unfold dofinalCommand at h
  split at h
  · cases h; exact .inl ⟨‹_›, rfl⟩
  · simp only at h
    split at h
    · cases h; exact .inr (.inl ⟨‹_›, _, ‹_›, rfl⟩)
    · cases h; exact .inr (.inr ⟨‹_›, _, ‹_›, rfl⟩)

/-! The final part of each configuration (47_accumulator.md R205). -/

theorem finalPart_noPadding {P : Primitive} {s : State} (hp : s.cfg.pad = .noPadding) :
    finalPart P s = if s.buf = [] then .ok s else .error .incompleteBlock := by
  have h : finalPart P s = finalNoPadding s := by
    unfold finalPart
    cases hd : s.cfg.dir <;> simp only [hp]
  rw [h]
  by_cases hb : s.buf = []
  · simp only [finalNoPadding, padNoPadding, hb, List.length_nil, ne_eq, not_true_eq_false, if_false, if_true, emit,
      List.append_nil]
    rw [← hb]
  · simp [finalNoPadding, padNoPadding, hb]

theorem finalPart_encPkcs5 {P : Primitive} {s : State} (hd : s.cfg.dir = .enc) (hp : s.cfg.pad = .pkcs5) :
    finalPart P s =
      if P.B % granularity P.B s.cfg = 0 then .ok { modeOp P false (padPkcs5 P.B s.buf) s with buf := [] }
      else .error .unalignedLength := by
  simp only [finalPart, hd, hp, finalEncPkcs5]
  by_cases hg : P.B % granularity P.B s.cfg = 0
  · rw [if_neg (by simpa only [ne_eq, Decidable.not_not] using hg), if_pos hg]
  · rw [if_pos hg, if_neg hg]

theorem finalPart_decPkcs5 {P : Primitive} {s : State} (hd : s.cfg.dir = .dec) (hp : s.cfg.pad = .pkcs5) :
    finalPart P s =
      if s.buf ≠ [] ∨ s.out.length < P.B then .error .incompleteBlock
      else
        match unpadPkcs5 P.B (s.out.drop (s.out.length - P.B)) with
        | none => .error .badPadding
        | some body => .ok { s with out := s.out.take (s.out.length - (P.B - body.length)) } := by
  simp only [finalPart, hd, hp, finalDecPkcs5, slice_to_end, slice_zero]
  by_cases hb : s.buf = []
  · simp only [hb, List.length_nil, ne_eq, not_true_eq_false, if_false, false_or]
    all_goals rfl
  · simp [hb]

/-- The final part fails with one of three errors (47_accumulator.md R205). -/
theorem finalPart_error {P : Primitive} {s : State} {e : Err} (h : finalPart P s = .error e) :
    e = .unalignedLength ∨ e = .incompleteBlock ∨ e = .badPadding := by
  unfold finalPart finalEncPkcs5 finalNoPadding finalDecPkcs5 at h
  repeat' split at h
  all_goals first | (cases h; simp) | cases h

/-- What a successful final part leaves: `BUF` empty, `R` moved only when padding was encrypted, all else kept
(47_accumulator.md R206 to R209). -/
theorem finalPart_ok {P : Primitive} {s u : State} (h : finalPart P s = .ok u) :
    u.buf = [] ∧ u.cfg = s.cfg ∧ u.regS = s.regS ∧ u.sValid = s.sValid ∧ u.input = s.input ∧
      u.responses = s.responses ∧ u.fsm = s.fsm ∧
      (u.regR = s.regR ∨
        (s.cfg.dir = .enc ∧ P.B % granularity P.B s.cfg = 0 ∧
          u.regR = (modeOp P false (padPkcs5 P.B s.buf) s).regR)) := by
  unfold finalPart finalEncPkcs5 finalNoPadding finalDecPkcs5 padNoPadding at h
  cases hd : s.cfg.dir <;> cases hp : s.cfg.pad <;> simp only [hd, hp] at h
  · by_cases hb : s.buf.length = 0
    · simp [hb] at h; subst h; simp [List.length_eq_zero_iff.mp hb]
    · simp [hb] at h
  · by_cases hb : P.B % granularity P.B s.cfg = 0
    · simp only [hb, ne_eq, not_true_eq_false, if_false, Except.ok.injEq] at h
      subst h
      exact ⟨rfl, rfl, rfl, rfl, rfl, rfl, rfl, .inr ⟨rfl, hb, rfl⟩⟩
    · simp [hb] at h
  · by_cases hb : s.buf.length = 0
    · simp [hb] at h; subst h; simp [List.length_eq_zero_iff.mp hb]
    · simp [hb] at h
  · by_cases hb : s.buf.length = 0
    · by_cases hl : s.out.length < P.B
      · simp [hb, hl] at h
      · simp only [hb, ne_eq, not_true_eq_false, if_false, hl] at h
        split at h
        · cases h
        · cases h; simp [List.length_eq_zero_iff.mp hb]
    · simp [hb] at h

/-- Every command answers a next state (60_exceptions.md R246). -/
theorem command_next (P : Primitive) (data : Bytes) (dec : Bool) (cfg : Cfg) (iv : Bytes) (s : State) :
    (∃ t, initCommand P.B cfg iv s = .next t) ∧ (∃ t, updateCommand P data s = .next t) ∧
      (∃ t, dofinalCommand P data s = .next t) ∧ (∃ t, execReset s = .next t) ∧ (∃ t, execSave s = .next t) ∧
      (∃ t, execRestore s = .next t) ∧ (∃ t, directCommand P dec data s = .next t) := by
  refine ⟨?_, ?_, ?_, ?_, ?_, ?_, ?_⟩
  · unfold initCommand; split <;> exact ⟨_, rfl⟩
  · unfold updateCommand; split <;> exact ⟨_, rfl⟩
  · unfold dofinalCommand
    split
    · exact ⟨_, rfl⟩
    · simp only; split <;> exact ⟨_, rfl⟩
  · unfold execReset; split <;> exact ⟨_, rfl⟩
  · unfold execSave; split <;> exact ⟨_, rfl⟩
  · unfold execRestore; split <;> exact ⟨_, rfl⟩
  · unfold directCommand; split <;> [skip; split] <;> exact ⟨_, rfl⟩

end Sys2Proof.Machine
end

