-- ==== Sys2Proof/Laws/Commands.lean ====
section
/-! SUPPORT. The eight commands together: everything `exec` can do with one, said once. -/

namespace Sys2Proof.Machine

/-- If a command answers a next state, it failed early and changed nothing but `LAST_ERR`, or it is one of the eight
effects, or DOFINAL failed late (60_exceptions.md R241). -/
theorem exec_next {i : Instr} {s t : State} (hc : i.isCommand = true) (h : exec i s = .next t) :
    (∃ e, t = raise e s ∧ e ≠ .ok ∧ ((∀ d, i ≠ .dofinal d) ∨ s.fsm = .uninit)) ∨
    (∃ dir mode pad w iv, i = .init dir mode pad w iv ∧ ivAccepted Config.B mode iv = true ∧
      t = complete (bindMode Config.B { dir := dir, mode := mode, pad := pad, w := w } iv (openOutput s))) ∨
    (s.fsm ≠ .uninit ∧ ∃ d, i = .update d ∧ t = complete (updatePart Config.primitive d (openOutput s))) ∨
    (s.fsm ≠ .uninit ∧ ∃ d e, i = .dofinal d ∧
      finalPart Config.primitive (updatePart Config.primitive d (openOutput s)) = .error e ∧
      t = raise e (updatePart Config.primitive d (openOutput s))) ∨
    (s.fsm ≠ .uninit ∧ ∃ d u, i = .dofinal d ∧
      finalPart Config.primitive (updatePart Config.primitive d (openOutput s)) = .ok u ∧
      t = complete { u with fsm := .finalized }) ∨
    (s.fsm ≠ .uninit ∧ i = .reset ∧
      t = complete { restoreSnapshot (openOutput s) with buf := [], fsm := .initialized }) ∨
    (s.fsm ≠ .uninit ∧ i = .save ∧ t = complete (takeSnapshot (openOutput s))) ∨
    (s.sValid = true ∧ i = .restore ∧ t = complete (restoreSnapshot (openOutput s))) ∨
    (s.fsm ≠ .uninit ∧ ∃ d dec, i = (if dec then .decrypt d else .encrypt d) ∧
      d.length % granularity Config.B s.cfg = 0 ∧ t = complete (modeOp Config.primitive dec d (openOutput s))) := by
  cases i <;> try cases hc
  case init dir mode pad w iv =>
    rcases initCommand_next h with ⟨_, ht⟩ | ⟨ha, ht⟩
    · exact .inl ⟨_, ht, by decide, .inl (by simp)⟩
    · exact .inr (.inl ⟨_, _, _, _, _, rfl, ha, ht⟩)
  case update d =>
    rcases updateCommand_next h with ⟨_, ht⟩ | ⟨ha, ht⟩
    · exact .inl ⟨_, ht, by decide, .inl (by simp)⟩
    · exact .inr (.inr (.inl ⟨ha, _, rfl, ht⟩))
  case dofinal d =>
    rcases dofinalCommand_next h with ⟨hu, ht⟩ | ⟨ha, e, he, ht⟩ | ⟨ha, u, he, ht⟩
    · exact .inl ⟨_, ht, by decide, .inr hu⟩
    · exact .inr (.inr (.inr (.inl ⟨ha, _, _, rfl, he, ht⟩)))
    · exact .inr (.inr (.inr (.inr (.inl ⟨ha, _, _, rfl, he, ht⟩))))
  case reset =>
    rcases execReset_next h with ⟨hu, ht⟩ | ⟨ha, ht⟩
    · exact .inl ⟨_, ht, by decide, .inl (by simp)⟩
    · exact .inr (.inr (.inr (.inr (.inr (.inl ⟨ha, rfl, ht⟩)))))
  case save =>
    rcases execSave_next h with ⟨hu, ht⟩ | ⟨ha, ht⟩
    · exact .inl ⟨_, ht, by decide, .inl (by simp)⟩
    · exact .inr (.inr (.inr (.inr (.inr (.inr (.inl ⟨ha, rfl, ht⟩))))))
  case restore =>
    rcases execRestore_next h with ⟨hu, ht⟩ | ⟨ha, ht⟩
    · exact .inl ⟨_, ht, by decide, .inl (by simp)⟩
    · exact .inr (.inr (.inr (.inr (.inr (.inr (.inr (.inl ⟨ha, rfl, ht⟩)))))))
  case encrypt d =>
    rcases directCommand_next h with ⟨hu, ht⟩ | ⟨hu, hm, ht⟩ | ⟨ha, hm, ht⟩
    · exact .inl ⟨_, ht, by decide, .inl (by simp)⟩
    · exact .inl ⟨_, ht, by decide, .inl (by simp)⟩
    · exact .inr (.inr (.inr (.inr (.inr (.inr (.inr (.inr ⟨ha, d, false, rfl, hm, ht⟩)))))))
  case decrypt d =>
    rcases directCommand_next h with ⟨hu, ht⟩ | ⟨hu, hm, ht⟩ | ⟨ha, hm, ht⟩
    · exact .inl ⟨_, ht, by decide, .inl (by simp)⟩
    · exact .inl ⟨_, ht, by decide, .inl (by simp)⟩
    · exact .inr (.inr (.inr (.inr (.inr (.inr (.inr (.inr ⟨ha, d, true, rfl, hm, ht⟩)))))))

/-- Every command answers a next state, in every state. -/
theorem exec_total {i : Instr} {s : State} (hc : i.isCommand = true) : ∃ t, exec i s = .next t := by
  cases i <;> try cases hc
  case init dir mode pad w iv => exact (command_next Config.primitive [] true ⟨dir,mode,pad,w⟩ iv s).1
  case update d => exact (command_next Config.primitive d true s.cfg [] s).2.1
  case dofinal d => exact (command_next Config.primitive d true s.cfg [] s).2.2.1
  case reset => exact (command_next Config.primitive [] true s.cfg [] s).2.2.2.1
  case save => exact (command_next Config.primitive [] true s.cfg [] s).2.2.2.2.1
  case restore => exact (command_next Config.primitive [] true s.cfg [] s).2.2.2.2.2.1
  case encrypt d => exact (command_next Config.primitive d false s.cfg [] s).2.2.2.2.2.2
  case decrypt d => exact (command_next Config.primitive d true s.cfg [] s).2.2.2.2.2.2

/-- Every command ends by responding, on a state whose channels to the host it has not touched, and with no output when
it fails (30_encoding.md R80, R81). -/
theorem exec_respond {i : Instr} {s t : State} (hc : i.isCommand = true) (h : exec i s = .next t) :
    ∃ m e v, t = respond e v m ∧ m.responses = s.responses ∧ m.input = s.input ∧ (e ≠ .ok → v = []) := by
  rcases exec_next hc h with ⟨e, rfl, _⟩ | ⟨_, _, _, _, _, rfl, _, rfl⟩ | ⟨_, d, rfl, rfl⟩ | ⟨_, d, e, rfl, _, rfl⟩ |
    ⟨_, d, u, rfl, hu, rfl⟩ | ⟨_, rfl, rfl⟩ | ⟨_, rfl, rfl⟩ | ⟨_, rfl, rfl⟩ | ⟨_, d, dec, _, _, rfl⟩
  case inl => exact ⟨_, _, _, raise_eq _ _, rfl, rfl, fun _ => rfl⟩
  case inr.inr.inr.inl => exact ⟨_, _, _, raise_eq _ _, rfl, rfl, fun _ => rfl⟩
  case inr.inr.inr.inr.inl =>
    obtain ⟨_, _, _, _, hin, hr, _⟩ := finalPart_ok hu
    exact ⟨_, _, _, complete_eq _, hr, hin, fun h => absurd rfl h⟩
  all_goals exact ⟨_, _, _, complete_eq _, rfl, rfl, fun h => absurd rfl h⟩

end Sys2Proof.Machine
end

