-- ==== Sys2Proof/Laws/Decode.lean ====
section
/-! SUPPORT. Laws of fields placed in words, of the encoder's words, and of the decoder. -/

namespace Sys2Proof

/-! ## Fields placed in a word -/

theorem getLsbD_placeField {n : Nat} (lo : Nat) (f : BitVec n) (i : Nat) :
    (placeField lo f).getLsbD i = (decide (i < 32) && (decide (lo ≤ i) && f.getLsbD (i - lo))) := by
  by_cases h : i < 32 <;> by_cases hl : lo ≤ i <;> simp [placeField, h, hl]

/-- Reading back a field where it was placed. -/
theorem extractLsb'_placeField {n lo : Nat} (f : BitVec n) (h : lo + n ≤ 32) :
    (placeField lo f).extractLsb' lo n = f := by
  apply BitVec.eq_of_getLsbD_eq
  intro i hi
  simp [getLsbD_placeField, hi]
  omega

/-- Reading beside a placed field gives zero. -/
theorem extractLsb'_placeField_disjoint {n m lo at' : Nat} (f : BitVec n) (h : at' + m ≤ lo ∨ lo + n ≤ at') :
    (placeField lo f).extractLsb' at' m = 0#m := by
  apply BitVec.eq_of_getLsbD_eq
  intro i hi
  simp only [BitVec.getLsbD_extractLsb', hi, decide_true, Bool.true_and, getLsbD_placeField, BitVec.getLsbD_zero]
  rcases h with h | h
  · simp [show ¬ lo ≤ at' + i by omega]
  · simp [BitVec.getLsbD_of_ge f (at' + i - lo) (by omega)]

/-! ## The fields of the encoder's words -/

theorem opField_encodeN (op : BitVec 4) : opField (encodeN op).word = op :=
  extractLsb'_placeField op (by decide)

theorem zeroFieldN_encodeN (op : BitVec 4) : zeroFieldN (encodeN op).word = 0#28 :=
  extractLsb'_placeField_disjoint op (by decide)

theorem opField_encodeD (op : BitVec 4) (data : Bytes) : opField (encodeD op data).word = op := by
  simp only [opField, encodeD, BitVec.extractLsb'_or]
  rw [extractLsb'_placeField op (by decide), extractLsb'_placeField_disjoint _ (by decide), BitVec.or_zero]

theorem zeroFieldD_encodeD (op : BitVec 4) (data : Bytes) : zeroFieldD (encodeD op data).word = 0#4 := by
  simp only [zeroFieldD, encodeD, BitVec.extractLsb'_or]
  rw [extractLsb'_placeField_disjoint op (by decide), extractLsb'_placeField_disjoint _ (by decide), BitVec.or_zero]

theorem lenField_encodeD (op : BitVec 4) (data : Bytes) :
    lenField (encodeD op data).word = BitVec.ofNat 24 data.length := by
  simp only [lenField, encodeD, BitVec.extractLsb'_or]
  rw [extractLsb'_placeField_disjoint op (by decide), extractLsb'_placeField _ (by decide), BitVec.zero_or]

section InitWord

variable (dir : Dir) (mode : Mode) (pad : Pad) (w : BitVec 8) (iv : Bytes)

theorem opField_encodeI : opField (encodeI dir mode pad w iv).word = 1#4 := by
  simp only [opField, encodeI, BitVec.extractLsb'_or]
  rw [extractLsb'_placeField _ (by decide), extractLsb'_placeField_disjoint _ (by decide),
    extractLsb'_placeField_disjoint _ (by decide), extractLsb'_placeField_disjoint _ (by decide),
    extractLsb'_placeField_disjoint _ (by decide), extractLsb'_placeField_disjoint _ (by decide)]
  rfl

theorem dirField_encodeI : dirField (encodeI dir mode pad w iv).word = dirBits dir := by
  simp only [dirField, encodeI, BitVec.extractLsb'_or]
  rw [extractLsb'_placeField_disjoint (1#4) (by decide), extractLsb'_placeField (dirBits dir) (by decide),
    extractLsb'_placeField_disjoint (modeBits mode) (by decide), extractLsb'_placeField_disjoint (padBits pad) (by decide),
    extractLsb'_placeField_disjoint w (by decide), extractLsb'_placeField_disjoint _ (by decide)]
  simp

theorem modeField_encodeI : modeField (encodeI dir mode pad w iv).word = modeBits mode := by
  simp only [modeField, encodeI, BitVec.extractLsb'_or]
  rw [extractLsb'_placeField_disjoint (1#4) (by decide), extractLsb'_placeField_disjoint (dirBits dir) (by decide),
    extractLsb'_placeField (modeBits mode) (by decide), extractLsb'_placeField_disjoint (padBits pad) (by decide),
    extractLsb'_placeField_disjoint w (by decide), extractLsb'_placeField_disjoint _ (by decide)]
  simp

theorem padField_encodeI : padField (encodeI dir mode pad w iv).word = padBits pad := by
  simp only [padField, encodeI, BitVec.extractLsb'_or]
  rw [extractLsb'_placeField_disjoint (1#4) (by decide), extractLsb'_placeField_disjoint (dirBits dir) (by decide),
    extractLsb'_placeField_disjoint (modeBits mode) (by decide), extractLsb'_placeField (padBits pad) (by decide),
    extractLsb'_placeField_disjoint w (by decide), extractLsb'_placeField_disjoint _ (by decide)]
  simp

theorem widthField_encodeI : widthField (encodeI dir mode pad w iv).word = w := by
  simp only [widthField, encodeI, BitVec.extractLsb'_or]
  rw [extractLsb'_placeField_disjoint (1#4) (by decide), extractLsb'_placeField_disjoint (dirBits dir) (by decide),
    extractLsb'_placeField_disjoint (modeBits mode) (by decide), extractLsb'_placeField_disjoint (padBits pad) (by decide),
    extractLsb'_placeField w (by decide), extractLsb'_placeField_disjoint _ (by decide)]
  simp

theorem ivLenField_encodeI : ivLenField (encodeI dir mode pad w iv).word = BitVec.ofNat 8 iv.length := by
  simp only [ivLenField, encodeI, BitVec.extractLsb'_or]
  rw [extractLsb'_placeField_disjoint (1#4) (by decide), extractLsb'_placeField_disjoint (dirBits dir) (by decide),
    extractLsb'_placeField_disjoint (modeBits mode) (by decide), extractLsb'_placeField_disjoint (padBits pad) (by decide),
    extractLsb'_placeField_disjoint w (by decide), extractLsb'_placeField _ (by decide)]
  simp

theorem zeroFieldI_encodeI : zeroFieldI (encodeI dir mode pad w iv).word = 0#8 := by
  simp only [zeroFieldI, encodeI, BitVec.extractLsb'_or]
  rw [extractLsb'_placeField_disjoint (1#4) (by decide), extractLsb'_placeField_disjoint (dirBits dir) (by decide),
    extractLsb'_placeField_disjoint (modeBits mode) (by decide), extractLsb'_placeField_disjoint (padBits pad) (by decide),
    extractLsb'_placeField_disjoint w (by decide), extractLsb'_placeField_disjoint _ (by decide)]
  simp

end InitWord

/-! ## Enumerations -/

@[simp] theorem dirOfBits_dirBits (d : Dir) : dirOfBits (dirBits d) = d := by cases d <;> rfl
@[simp] theorem modeOfBits_modeBits (m : Mode) : modeOfBits (modeBits m) = m := by cases m <;> rfl
@[simp] theorem padOfBits_padBits (p : Pad) : padOfBits (padBits p) = p := by cases p <;> rfl
@[simp] theorem dirBits_dirOfBits (b : BitVec 1) : dirBits (dirOfBits b) = b := by revert b; decide
@[simp] theorem modeBits_modeOfBits (b : BitVec 2) : modeBits (modeOfBits b) = b := by revert b; decide
@[simp] theorem padBits_padOfBits (b : BitVec 1) : padBits (padOfBits b) = b := by revert b; decide

/-- The decoder's width check is the one of `wellFormed` (30_encoding.md R77). -/
theorem widthDecodes_eq (B : Nat) (mode : Mode) (w : BitVec 8) : widthDecodes B mode w = legalWidth B mode w.toNat := by
  have h : (w == 0#8) = (w.toNat == 0) := by
    rw [Bool.eq_iff_iff]; simp [← BitVec.toNat_inj]
  cases mode <;> simp [widthDecodes, legalWidth, h]

/-! ## What decoding a request means -/

theorem decode_command {B : Nat} {q : Request} {i : Instr} (h : decode B q = .command i) :
    Framed B q ∧ illegalWord B q.word = none ∧ commandOf q.word q.operand = some i := by
  unfold decode at h
  split at h
  · cases h
  · rename_i hf
    split at h
    · cases h
    · split at h
      · cases h; exact ⟨Decidable.not_not.mp hf, ‹_›, ‹_›⟩
      · cases h

theorem decode_illegal {B : Nat} {q : Request} {why : IllegalWord} (h : illegalWord B q.word = some why)
    (hop : q.operand = []) : decode B q = .illegal why := by
  simp [decode, operandLen, h, hop]

/-- No decoded instruction is a unit step (30_encoding.md R84). -/
theorem commandOf_isCommand {w : Word} {operand : Bytes} {i : Instr} (h : commandOf w operand = some i) :
    i.isCommand = true := by
  simp only [commandOf] at h
  repeat' split at h
  all_goals first | (cases h; rfl) | cases h

theorem decode_isCommand {B : Nat} {q : Request} {i : Instr} (h : decode B q = .command i) : i.isCommand = true :=
  commandOf_isCommand (decode_command h).2.2

/-- A decoded INIT has a legal width (30_encoding.md R77). -/
theorem decode_init_width {B : Nat} {q : Request} {dir : Dir} {mode : Mode} {pad : Pad} {w : BitVec 8} {iv : Bytes}
    (h : decode B q = .command (.init dir mode pad w iv)) : legalWidth B mode w.toNat = true := by
  obtain ⟨-, hl, hc⟩ := decode_command h
  simp only [commandOf] at hc
  split at hc
  · rename_i hop
    cases hc
    simp only [illegalWord, formatOfOp, hop, if_true] at hl
    split at hl
    · cases hl
    · split at hl
      · rename_i hw; rwa [widthDecodes_eq] at hw
      · cases hl
  · repeat' split at hc
    all_goals cases hc

end Sys2Proof
end

