-- ==== Sys2Proof/Laws/PerInstr.lean ====
section
/-! SUPPORT. Statements made per instruction. `EncodeFramed`: the request of a well-formed instruction has a word that is
legal and states the length of its operand (30_encoding.md R75, R76). -/

namespace Sys2Proof.Laws.EncodeFramed

def Statement (i : Instr) : Prop :=
  ∀ (B : Nat) (q : Request), wellFormed B i = true → encode i = some q → illegalWord B q.word = none ∧ Framed B q

theorem formatN {op : BitVec 4} (h : formatOfOp op = some .n) (B : Nat) :
    illegalWord B (encodeN op).word = none ∧ Framed B (encodeN op) := by
  have hl : illegalWord B (encodeN op).word = none := by
    simp [illegalWord, opField_encodeN, h, zeroFieldN_encodeN]
  refine ⟨hl, ?_⟩
  rw [Framed, operandLen, hl]
  simp only [opField_encodeN, h]
  rfl

theorem formatD {op : BitVec 4} {data : Bytes} (h : formatOfOp op = some .d) (hd : data.length ≤ Config.lenMax)
    (B : Nat) : illegalWord B (encodeD op data).word = none ∧ Framed B (encodeD op data) := by
  have hl : illegalWord B (encodeD op data).word = none := by
    simp [illegalWord, opField_encodeD, h, zeroFieldD_encodeD]
  refine ⟨hl, ?_⟩
  have hm : data.length % 2 ^ 24 = data.length := Nat.mod_eq_of_lt (by simp [Config.lenMax] at hd; omega)
  rw [Framed, operandLen, hl]
  simp only [opField_encodeD, h, lenField_encodeD, BitVec.toNat_ofNat, hm]
  rfl

theorem init (dir : Dir) (mode : Mode) (pad : Pad) (w : BitVec 8) (iv : Bytes) :
    Statement (.init dir mode pad w iv) := by
  intro B q hw hq
  cases hq
  simp only [wellFormed, Bool.and_eq_true, decide_eq_true_eq] at hw
  have hf : formatOfOp 1#4 = some .i := rfl
  have hl : illegalWord B (encodeI dir mode pad w iv).word = none := by
    simp [illegalWord, opField_encodeI, hf, zeroFieldI_encodeI, modeField_encodeI, widthField_encodeI,
      widthDecodes_eq, hw.1]
  refine ⟨hl, ?_⟩
  have hm : iv.length % 2 ^ 8 = iv.length := Nat.mod_eq_of_lt (by omega)
  rw [Framed, operandLen, hl]
  simp only [opField_encodeI, hf, ivLenField_encodeI, BitVec.toNat_ofNat, hm]
  rfl

theorem update (data : Bytes) : Statement (.update data) := by
  intro B q hw hq; cases hq; exact formatD rfl (by simpa [wellFormed] using hw) B

theorem dofinal (data : Bytes) : Statement (.dofinal data) := by
  intro B q hw hq; cases hq; exact formatD rfl (by simpa [wellFormed] using hw) B

theorem reset : Statement .reset := by intro B q _ hq; cases hq; exact formatN rfl B

theorem save : Statement .save := by intro B q _ hq; cases hq; exact formatN rfl B

theorem restore : Statement .restore := by intro B q _ hq; cases hq; exact formatN rfl B

theorem encrypt (data : Bytes) : Statement (.encrypt data) := by
  intro B q hw hq; cases hq; exact formatD rfl (by simpa [wellFormed] using hw) B

theorem decrypt (data : Bytes) : Statement (.decrypt data) := by
  intro B q hw hq; cases hq; exact formatD rfl (by simpa [wellFormed] using hw) B

theorem ecbEnc (x : Bytes) : Statement (.ecbEnc x) := by intro B q _ hq; cases hq

theorem ecbDec (x : Bytes) : Statement (.ecbDec x) := by intro B q _ hq; cases hq

theorem cbcEnc (x : Bytes) : Statement (.cbcEnc x) := by intro B q _ hq; cases hq

theorem cbcDec (x : Bytes) : Statement (.cbcDec x) := by intro B q _ hq; cases hq

theorem cfbEnc (x : Bytes) : Statement (.cfbEnc x) := by intro B q _ hq; cases hq

theorem cfbDec (x : Bytes) : Statement (.cfbDec x) := by intro B q _ hq; cases hq

theorem ofbStep (x : Bytes) : Statement (.ofbStep x) := by intro B q _ hq; cases hq

end Sys2Proof.Laws.EncodeFramed
end

