-- ==== Sys2Proof/Laws/Step.lean ====
section
/-! SUPPORT. Everything a step can do, said once. -/

namespace Sys2Proof.Machine

/-- If a step answers a next state, the machine waited, was reset, ran a decoded command, or refused a word that does
not decode with `IllegalCommand`. -/
theorem step_next {s t : State} (h : step s = .next t) :
    (s.input = [] ∧ t = s) ∨
    (∃ rest, s.input = .hardwareReset :: rest ∧ t = hardwareReset Config.B { s with input := rest }) ∨
    (∃ q rest i, s.input = .command q :: rest ∧ decode Config.B q = .command i ∧ exec i { s with input := rest } = .next t) ∨
    (∃ q rest why, s.input = .command q :: rest ∧ decode Config.B q = .illegal why ∧
      t = raise .illegalCommand { s with input := rest }) := by
  unfold step at h
  split at h
  · cases h; exact .inl ⟨‹_›, rfl⟩
  · cases h; exact .inr (.inl ⟨_, ‹_›, rfl⟩)
  · split at h
    · exact .inr (.inr (.inl ⟨_, _, _, ‹_›, ‹_›, h⟩))
    · cases h; exact .inr (.inr (.inr ⟨_, _, _, ‹_›, ‹_›, rfl⟩))
    · cases h

theorem step_command {s : State} {q : Request} {rest : List HostMove} {i : Instr} (hs : s.input = .command q :: rest)
    (hq : decode Config.B q = .command i) : step s = exec i { s with input := rest } := by
  simp [step, hs, hq]

theorem step_illegal {s : State} {q : Request} {rest : List HostMove} {why : IllegalWord}
    (hs : s.input = .command q :: rest) (hq : decode Config.B q = .illegal why) :
    step s = .next (raise .illegalCommand { s with input := rest }) := by
  simp [step, hs, hq]

theorem step_misframed {s : State} {q : Request} {rest : List HostMove} (hs : s.input = .command q :: rest)
    (hq : decode Config.B q = .misframed) : step s = .refused .operandNotFramed := by
  simp [step, hs, hq]

end Sys2Proof.Machine
end

