-- ==== Sys2Proof/Tests/Slice0.lean ====
section
/-! SUPPORT. Tests. Expected values are those of 95_test_vectors.md (its toy primitive, `B = 4`), or worked by hand from
the rule named. The last part shows, for every obligation with hypotheses, data that meet them. -/

namespace Sys2Proof.Tests

open Sys2Proof.Machine

/-! ## WellFormed: each check refuses an ill-formed term -/

theorem test_wf_cfb_width_zero : wellFormed 4 (.init .enc .cfb .noPadding 0#8 []) = false := by decide
theorem test_wf_cfb_width_above_B : wellFormed 4 (.init .enc .cfb .noPadding 5#8 []) = false := by decide
theorem test_wf_cbc_width : wellFormed 4 (.init .enc .cbc .noPadding 1#8 []) = false := by decide
theorem test_wf_iv_length : wellFormed 4 (.init .enc .cbc .noPadding 0#8 (rep 0#8 256)) = false := by simp [wellFormed]
theorem test_wf_update_length : wellFormed 4 (.update (rep 0#8 (2 ^ 24))) = false := by simp [wellFormed, Config.lenMax]
theorem test_wf_dofinal_length : wellFormed 4 (.dofinal (rep 0#8 (2 ^ 24))) = false := by simp [wellFormed, Config.lenMax]
theorem test_wf_encrypt_length : wellFormed 4 (.encrypt (rep 0#8 (2 ^ 24))) = false := by simp [wellFormed, Config.lenMax]
theorem test_wf_decrypt_length : wellFormed 4 (.decrypt (rep 0#8 (2 ^ 24))) = false := by simp [wellFormed, Config.lenMax]
theorem test_wf_unit_length :
    wellFormed 4 (.ecbEnc (rep 0#8 3)) = false ∧ wellFormed 4 (.ecbDec (rep 0#8 5)) = false ∧
    wellFormed 4 (.cbcEnc (rep 0#8 3)) = false ∧ wellFormed 4 (.cbcDec (rep 0#8 5)) = false ∧
    wellFormed 4 (.cfbEnc []) = false ∧ wellFormed 4 (.cfbEnc (rep 0#8 5)) = false ∧
    wellFormed 4 (.cfbDec []) = false ∧ wellFormed 4 (.cfbDec (rep 0#8 5)) = false ∧
    wellFormed 4 (.ofbStep (rep 0#8 3)) = false := by decide

/-! ## Decode: words written out in 95_test_vectors.md section 2.2 -/

/-- `IV = a0a1a2a3`. -/
def iv4 : Bytes := [0xa0#8, 0xa1#8, 0xa2#8, 0xa3#8]

theorem test_decode_init :
    decode 4 ⟨0x00000001#32, []⟩ = .command (.init .enc .ecb .noPadding 0#8 []) ∧
    decode 4 ⟨0x000400B1#32, iv4⟩ = .command (.init .dec .cbc .pkcs5 0#8 iv4) ∧
    decode 4 ⟨0x000403C1#32, iv4⟩ = .command (.init .enc .cfb .pkcs5 3#8 iv4) ∧
    decode 4 ⟨0x00040061#32, iv4⟩ = .command (.init .enc .ofb .noPadding 0#8 iv4) := by decide
theorem test_decode_update :
    decode 4 ⟨0x00000302#32, [0x41#8, 0x42#8, 0x43#8]⟩ = .command (.update [0x41#8, 0x42#8, 0x43#8]) := by decide
theorem test_decode_dofinal : decode 4 ⟨0x00000203#32, [0x41#8, 0x42#8]⟩ = .command (.dofinal [0x41#8, 0x42#8]) := by decide
theorem test_decode_reset : decode 4 ⟨0x00000004#32, []⟩ = .command .reset := by decide
theorem test_decode_save : decode 4 ⟨0x00000005#32, []⟩ = .command .save := by decide
theorem test_decode_restore : decode 4 ⟨0x00000006#32, []⟩ = .command .restore := by decide
theorem test_decode_encrypt : decode 4 ⟨0x00000407#32, iv4⟩ = .command (.encrypt iv4) := by decide
theorem test_decode_decrypt : decode 4 ⟨0x00000408#32, iv4⟩ = .command (.decrypt iv4) := by decide
/-- R84: no unit step has a word, and none of its selecting `CFG` values is a command word. -/
theorem test_unit_steps_have_no_word :
    encode (.ecbEnc iv4) = none ∧ encode (.ecbDec iv4) = none ∧ encode (.cbcEnc iv4) = none ∧
    encode (.cbcDec iv4) = none ∧ encode (.cfbEnc iv4) = none ∧ encode (.cfbDec iv4) = none ∧
    encode (.ofbStep iv4) = none ∧ decodeTableWord 32 0x00 = none ∧ decodeTableWord 32 0x20 = none ∧
    decodeTableWord 32 0x40 = none ∧ decodeTableWord 32 0x60 = none := by decide
/-- R83. -/
theorem test_mreset : encode mreset = some ⟨0x00000006#32, []⟩ := by decide
theorem test_decode_illegal :
    decode 4 ⟨0x00000000#32, []⟩ = .illegal .reservedOpcode ∧ decode 4 ⟨0x00000009#32, []⟩ = .illegal .reservedOpcode ∧
    decode 4 ⟨0x0000000F#32, []⟩ = .illegal .reservedOpcode ∧ decode 4 ⟨0x00000014#32, []⟩ = .illegal .mustBeZero ∧
    decode 4 ⟨0x00000112#32, []⟩ = .illegal .mustBeZero ∧ decode 4 ⟨0x01000001#32, []⟩ = .illegal .mustBeZero ∧
    decode 4 ⟨0x00040121#32, []⟩ = .illegal .widthOutOfRange ∧ decode 4 ⟨0x00040041#32, []⟩ = .illegal .widthOutOfRange ∧
    decode 4 ⟨0x00040541#32, []⟩ = .illegal .widthOutOfRange := by decide
/-- R75: an operand of another length than the word's. -/
theorem test_decode_misframed : decode 4 ⟨0x00000302#32, [0x41#8]⟩ = .misframed := by decide
theorem test_encode_largest_word : (encodeD 2#4 (rep 0#8 3)).word = 0x00000302#32 ∧
    (encodeI .enc .cfb .pkcs5 3#8 iv4).word = 0x000403C1#32 := by decide

/-! ## The toy primitive (95_test_vectors.md section 2.1) -/

def key4 : Bytes := [0x11#8, 0x22#8, 0x33#8, 0x44#8]

def toy : Primitive where
  B := 4
  E x := toBlock 4 (xorBytes (x.toList.drop 1 ++ x.toList.take 1) key4)
  D y := toBlock 4 ((xorBytes y.toList key4).drop 3 ++ (xorBytes y.toList key4).take 3)
  bounds := by decide

/-- The table of section 2.1. -/
theorem test_toy :
    primPort toy .e [1#8, 2#8, 3#8, 4#8] = [0x13#8, 0x21#8, 0x37#8, 0x45#8] ∧
    primPort toy .d [1#8, 2#8, 3#8, 4#8] = [0x40#8, 0x10#8, 0x20#8, 0x30#8] := by decide

theorem toy_inverse : toy.Inverse := by
  rintro ⟨⟨l⟩, hl⟩
  match l, hl with
  | [a, b, c, d], _ => simp [toy, toBlock, fit, xorBytes, key4, rep, Vector.toList]

/-! ## One step of each instruction -/

def cfgOf (dir : Dir) (mode : Mode) (pad : Pad) (w : BitVec 8) : Cfg := { dir := dir, mode := mode, pad := pad, w := w }

/-- A state bound to a configuration, its register and snapshot zero. -/
def ready (B : Nat) (c : Cfg) : State := { State.resetOf B with fsm := .initialized, cfg := c, sValid := true }

/-- The same, bound with `iv4`. -/
def bound (dir : Dir) (mode : Mode) (pad : Pad) (w : BitVec 8) : State :=
  { ready 4 (cfgOf dir mode pad w) with regR := iv4, regS := iv4 }

/-- Output, `STATUS` and `R` after a command. -/
def seen : Host.Outcome State Fault Refusal → Option (Bytes × Word × Bytes)
  | .next t => some (lastOut t, statusWord t, t.regR)
  | .fault _ => none
  | .refused _ => none

/-- P1, line 1. -/
theorem test_init_cbc : seen (initCommand 4 (cfgOf .enc .cbc .pkcs5 0#8) iv4 (State.resetOf 4)) =
    some ([], 0x50#32, iv4) := by decide
/-- P7, the lines with an IV under ECB and with one too short. -/
theorem test_init_bad_iv :
    seen (initCommand 4 (cfgOf .enc .ecb .noPadding 0#8) iv4 (State.resetOf 4)) = some ([], 0x01#32, rep 0#8 4) ∧
    seen (initCommand 4 (cfgOf .enc .cbc .noPadding 0#8) [0xa0#8] (State.resetOf 4)) = some ([], 0x01#32, rep 0#8 4) := by
  decide
/-- P3, line 2. -/
theorem test_update_cbc : seen (updateCommand toy [1#8, 2#8, 3#8, 4#8, 5#8] (bound .enc .cbc .noPadding 0#8)) =
    some ([0xb2#8, 0x83#8, 0x94#8, 0xe5#8], 0x160#32, [0xb2#8, 0x83#8, 0x94#8, 0xe5#8]) := by decide
/-- P2, line 2: two units of one byte. -/
theorem test_update_cfb1 : seen (updateCommand toy [1#8, 2#8] (bound .enc .cfb .noPadding 1#8)) =
    some ([0xb1#8, 0xb1#8], 0x60#32, [0xa2#8, 0xa3#8, 0xb1#8, 0xb1#8]) := by decide
/-- T3 and T4; P6, line 3, from the state of its line 2. -/
theorem test_dofinal_pkcs5 :
    seen (dofinalCommand toy [0x41#8, 0x42#8] (bound .enc .cbc .pkcs5 0#8)) =
      some ([0xf2#8, 0x82#8, 0x92#8, 0xa5#8], 0x70#32, [0xf2#8, 0x82#8, 0x92#8, 0xa5#8]) ∧
    seen (dofinalCommand toy [0xf2#8, 0x82#8, 0x92#8, 0xa5#8] (bound .dec .cbc .pkcs5 0#8)) =
      some ([0x41#8, 0x42#8], 0x70#32, [0xf2#8, 0x82#8, 0x92#8, 0xa5#8]) ∧
    seen (dofinalCommand toy [5#8, 6#8]
        { bound .enc .cfb .pkcs5 3#8 with fsm := .updating, buf := [4#8], regR := [0xa3#8, 0xb1#8, 0x82#8, 0x93#8] }) =
      some ([], 0x62#32, [0x93#8, 0xa4#8, 0xa5#8, 0xa6#8]) := by decide
/-- T5; P5, line 2; the first rejected row and the whole-block row of section 2.4. -/
theorem test_dofinal_errors_and_strip :
    seen (dofinalCommand toy [1#8, 2#8, 3#8, 4#8, 5#8] (ready 4 (cfgOf .enc .ecb .noPadding 0#8))) =
      some ([], 0x164#32, rep 0#8 4) ∧
    seen (dofinalCommand toy [0xf2#8, 0x82#8, 0x93#8, 0xa5#8] (bound .dec .cbc .pkcs5 0#8)) =
      some ([], 0x65#32, [0xf2#8, 0x82#8, 0x93#8, 0xa5#8]) ∧
    seen (dofinalCommand toy [0x53#8, 0x61#8, 0x33#8, 0x05#8] (ready 4 (cfgOf .dec .ecb .pkcs5 0#8))) =
      some ([], 0x65#32, rep 0#8 4) ∧
    seen (dofinalCommand toy [0x15#8, 0x26#8, 0x37#8, 0x40#8] (ready 4 (cfgOf .dec .ecb .pkcs5 0#8))) =
      some ([], 0x70#32, rep 0#8 4) := by decide
/-- P1, line 5. -/
theorem test_reset : seen (execReset { bound .enc .cbc .pkcs5 0#8 with fsm := .finalized, regR := rep 1#8 4 }) =
    some ([], 0x50#32, iv4) := by decide
/-- P7, line 2. -/
theorem test_reset_uninit : seen (execReset (State.resetOf 4)) = some ([], 0x07#32, rep 0#8 4) := by decide
/-- P3, line 3: `S` takes `R`, `BUF` waits. -/
theorem test_save :
    (match execSave { bound .enc .cbc .noPadding 0#8 with fsm := .updating, regR := rep 1#8 4, buf := [5#8] } with
      | .next t => some (t.regR, t.regS, t.buf, statusWord t)
      | .fault _ => none
      | .refused _ => none) = some (rep 1#8 4, rep 1#8 4, [5#8], 0x160#32) := by decide
/-- P7, lines 3 and 4. -/
theorem test_save_restore_uninit :
    seen (execSave (State.resetOf 4)) = some ([], 0x07#32, rep 0#8 4) ∧
    seen (execRestore (State.resetOf 4)) = some ([], 0x03#32, rep 0#8 4) := by decide
/-- P3, line 5. -/
theorem test_restore :
    seen (execRestore { bound .enc .cbc .noPadding 0#8 with fsm := .updating, regR := rep 1#8 4, buf := [5#8] }) =
      some ([], 0x160#32, iv4) := by decide
/-- Section 2.3, CFB with `W = 3`; P7, line 19. -/
theorem test_encrypt :
    seen (directCommand toy false [1#8, 2#8, 3#8, 4#8, 5#8, 6#8] (bound .enc .cfb .noPadding 3#8)) =
      some ([0xb1#8, 0x82#8, 0x93#8, 0xa4#8, 0xa5#8, 0xa6#8], 0x50#32, [0x93#8, 0xa4#8, 0xa5#8, 0xa6#8]) ∧
    seen (directCommand toy false [1#8, 2#8, 3#8] (ready 4 (cfgOf .enc .ecb .noPadding 0#8))) =
      some ([], 0x52#32, rep 0#8 4) := by decide
/-- Section 2.3, CBC, last row, and OFB; `CFG.DIR` is ENC in both. -/
theorem test_decrypt :
    seen (directCommand toy true (rep 0#8 4) (bound .enc .cbc .noPadding 0#8)) =
      some ([0xe4#8, 0xb0#8, 0x80#8, 0x90#8], 0x50#32, rep 0#8 4) ∧
    seen (directCommand toy true [0xb1#8, 0x82#8, 0x93#8, 0xe0#8, 0x94#8, 0xb4#8, 0xd0#8, 0xfc#8]
        (bound .enc .ofb .noPadding 0#8)) =
      some ([1#8, 2#8, 3#8, 4#8, 5#8, 6#8, 7#8, 8#8], 0x50#32, [0x91#8, 0xb2#8, 0xd7#8, 0xf4#8]) := by decide
/-- Section 2.3, ECB. -/
theorem test_ecb_units :
    ecbEncStep toy iv4 [1#8, 2#8, 3#8, 4#8] = ⟨iv4, [0x13#8, 0x21#8, 0x37#8, 0x45#8]⟩ ∧
    ecbDecStep toy iv4 [0x13#8, 0x21#8, 0x37#8, 0x45#8] = ⟨iv4, [1#8, 2#8, 3#8, 4#8]⟩ := by decide
/-- Section 2.3, CBC. -/
theorem test_cbc_units :
    cbcEncStep toy iv4 [1#8, 2#8, 3#8, 4#8] = ⟨[0xb2#8, 0x83#8, 0x94#8, 0xe5#8], [0xb2#8, 0x83#8, 0x94#8, 0xe5#8]⟩ ∧
    cbcDecStep toy iv4 [0xb2#8, 0x83#8, 0x94#8, 0xe5#8] =
      ⟨[0xb2#8, 0x83#8, 0x94#8, 0xe5#8], [1#8, 2#8, 3#8, 4#8]⟩ := by decide
/-- Section 2.3, CFB, the first step of the trace for `W = 2`, and its inverse. -/
theorem test_cfb_units :
    cfbEncStep toy 2 iv4 [1#8, 2#8] = ⟨[0xa2#8, 0xa3#8, 0xb1#8, 0x82#8], [0xb1#8, 0x82#8]⟩ ∧
    cfbDecStep toy 2 iv4 [0xb1#8, 0x82#8] = ⟨[0xa2#8, 0xa3#8, 0xb1#8, 0x82#8], [1#8, 2#8]⟩ := by decide
/-- Section 2.3, OFB, step 1. -/
theorem test_ofb_unit :
    ofbStep toy iv4 [1#8, 2#8, 3#8, 4#8] =
      ⟨[0xb0#8, 0x80#8, 0x90#8, 0xe4#8], [0xb1#8, 0x82#8, 0x93#8, 0xe0#8]⟩ := by decide

/-- Section 2.2, `STATUS` vectors, and R23. -/
theorem test_status :
    statusWord { bound .enc .cbc .noPadding 0#8 with fsm := .updating, buf := [1#8, 2#8, 3#8] } = 0x360#32 ∧
    statusWord { bound .enc .cbc .noPadding 0#8 with fsm := .updating, buf := [1#8], lastErr := .incompleteBlock } =
      0x164#32 ∧
    cfgWord (cfgOf .dec .cfb .pkcs5 3#8) = 0x3D0#32 := by decide

/-! ## The step from reset (section 2.6, P7): STATUS of the first command -/

def statusOf : Host.Outcome State Fault Refusal → Option Word
  | .next t => some (statusWord t)
  | .fault _ => none
  | .refused _ => none

theorem test_step_commands :
    statusOf (step (State.reset.withFetchWord 32 0x00000001)) = some 0x50#32 ∧
    statusOf (step (State.reset.withFetchWord 32 0x00000002)) = some 0x07#32 ∧
    statusOf (step (State.reset.withFetchWord 32 0x00000003)) = some 0x07#32 ∧
    statusOf (step (State.reset.withFetchWord 32 0x00000004)) = some 0x07#32 ∧
    statusOf (step (State.reset.withFetchWord 32 0x00000005)) = some 0x07#32 ∧
    statusOf (step (State.reset.withFetchWord 32 0x00000006)) = some 0x03#32 ∧
    statusOf (step (State.reset.withFetchWord 32 0x00000307)) = some 0x07#32 ∧
    statusOf (step (State.reset.withFetchWord 32 0x00000008)) = some 0x07#32 ∧
    statusOf (step (State.reset.withFetchWord 32 0x00000014)) = some 0x06#32 := by decide

theorem test_decodeTableWord :
    decodeTableWord 32 0x00000001 = some (.init .enc .ecb .noPadding 0#8 []) ∧
    decodeTableWord 32 0x00000203 = some (.dofinal [0#8, 0#8]) ∧ decodeTableWord 32 0x00000006 = some .restore := by decide

/-! ## Witnesses: `witness_<Name>` meets the hypotheses of `Obligations.<Name>`, clause by clause. `Config.B` is opaque,
so the data are strings of zeros of that length, or CFB with the width 2 where a length must not be a whole number of
units. -/

theorem ready_inv {c : Cfg} (h : CfgLegal Config.B c) : Inv Config.B (ready Config.B c) := by
  have hg := (granularity_bounds Config.B_bounds.1 h).1
  constructor <;> simp [ready, State.resetOf, rep]
  · exact hg
  · exact fun hm => h.range hm
  · exact fun hm => h.zero hm

theorem legal_zero {dir : Dir} {mode : Mode} {pad : Pad} (h : mode ≠ .cfb) : CfgLegal Config.B (cfgOf dir mode pad 0#8) :=
  ⟨fun hm => absurd hm h, fun _ => rfl⟩

theorem legal_cfb1 (dir : Dir) (pad : Pad) : CfgLegal Config.B (cfgOf dir .cfb pad 1#8) :=
  ⟨fun _ => ⟨Nat.le_refl 1, Config.B_bounds.1⟩, fun h => absurd rfl h⟩

/-- The keystream block of OFB from the zero register. -/
def keystream : Bytes := primPort Config.primitive .e (rep 0#8 Config.B)

theorem length_keystream : keystream.length = Config.B := by simp [keystream]

/-- One OFB block decrypts to the XOR with the keystream. -/
theorem run_ofb (dir : Dir) (pad : Pad) (dec : Bool) {x : Bytes} (hx : x.length = Config.B) :
    modeRun Config.primitive (cfgOf dir .ofb pad 0#8) dec (unitsOf Config.B x) (rep 0#8 Config.B) =
      ⟨keystream, xorBytes x keystream⟩ := by
  have := modeRun_unit (P := Config.primitive) (cfg := cfgOf dir .ofb pad 0#8) dec (rep 0#8 Config.B) (x := x)
    Config.B_bounds.1 hx
  rw [show granularity Config.primitive.B (cfgOf dir .ofb pad 0#8) = Config.B from rfl] at this
  rw [this]
  cases dec <;> rfl

/-- The ciphertext that decrypts to a given block. -/
def sealed (plain : Bytes) : Bytes := xorBytes plain keystream

theorem run_sealed {plain : Bytes} (h : plain.length = Config.B) :
    modeRun Config.primitive (cfgOf .dec .ofb .pkcs5 0#8) true (unitsOf Config.B (sealed plain)) (rep 0#8 Config.B) =
      ⟨keystream, plain⟩ := by
  rw [run_ofb _ _ _ (by simp [sealed, h, length_keystream]), sealed, xorBytes_cancel (h.trans length_keystream.symm)]

/-- An OFB state that unpads. -/
def opening : State := ready Config.B (cfgOf .dec .ofb .pkcs5 0#8)

/-- A CFB state with the width 2. -/
def pairs (dir : Dir) (pad : Pad) : State := ready Config.B (cfgOf dir .cfb pad 2#8)

def zeros : State := ready Config.B (cfgOf .enc .ecb .noPadding 0#8)

def withMove (m : HostMove) (s : State) : State := { s with input := [m] }

theorem witness_DecodeEncodeAgree :
    (∀ i ∈ [Instr.init .dec .cfb .pkcs5 4#8 iv4, .init .enc .cbc .noPadding 0#8 [], .update (rep 7#8 5), .dofinal [],
      .reset, .save, .restore, .encrypt iv4, .decrypt iv4], wellFormed 4 i = true ∧ i.isCommand = true) := by decide

theorem witness_EncodeDecodeAgree :
    4 ≤ 255 ∧ decode 4 ⟨0x000403C1#32, iv4⟩ = .command (.init .enc .cfb .pkcs5 3#8 iv4) := by decide

theorem witness_DecodeFollowsMatchAndMask :
    Framed 4 ⟨0x000404C1#32, iv4⟩ ∧ WidthLegalBits 4 0x000404C1#32 ∧ Framed 4 ⟨0x00000102#32, [0#8]⟩ ∧
    Framed 4 ⟨0x00000003#32, []⟩ ∧ Framed 4 ⟨0x00000004#32, []⟩ ∧ Framed 4 ⟨0x00000005#32, []⟩ ∧
    Framed 4 ⟨0x00000006#32, []⟩ ∧ Framed 4 ⟨0x00000107#32, [0#8]⟩ ∧ Framed 4 ⟨0x00000108#32, [0#8]⟩ := by
  refine ⟨by decide, .inl (by decide), ?_⟩
  decide

theorem witness_IllegalWordsFail :
    (withMove (.command ⟨0x00000000#32, []⟩) State.reset).input = [.command ⟨0x00000000#32, []⟩] ∧
    Framed Config.B ⟨0x00000000#32, []⟩ ∧ WordIllegal Config.B 0x00000000#32 ∧ Framed Config.B ⟨0x00000004#32, []⟩ ∧
    ¬ WordIllegal Config.B 0x00000004#32 := by
  refine ⟨rfl, rfl, .inl (.inl (by decide)), rfl, ?_⟩
  simp [WordIllegal]

theorem witness_StepRunsDecodedInstruction :
    (withMove (.command ⟨0x00000102#32, [7#8]⟩) zeros).input = [.command ⟨0x00000102#32, [7#8]⟩] ∧
    decode Config.B ⟨0x00000102#32, [7#8]⟩ = .command (.update [7#8]) := by decide

theorem witness_EveryFramedCommandIsAnswered :
    (withMove (.command ⟨0x00000102#32, [7#8]⟩) zeros).input = [.command ⟨0x00000102#32, [7#8]⟩] ∧
    Framed Config.B ⟨0x00000102#32, [7#8]⟩ ∧
    ∃ t, step (withMove (.command ⟨0x00000004#32, []⟩) State.reset) = .next t ∧ t.lastErr ≠ .ok :=
  ⟨rfl, by decide, _, rfl, by decide⟩

theorem witness_StepStopsOnlyOnMisframedOperand :
    State.reset.input = [] ∧ ¬ Framed Config.B ⟨0x00000102#32, []⟩ ∧
    step (withMove (.command ⟨0x00000102#32, []⟩) State.reset) = .refused .operandNotFramed :=
  ⟨rfl, by decide, rfl⟩

theorem witness_HardwareResetFromAnyState : (withMove .hardwareReset zeros).input = [.hardwareReset] := rfl

theorem witness_InitLoadsAndSnapshots : IvLegal Config.B .ecb [] ∧ IvLegal Config.B .cfb (rep 0#8 Config.B) := by simp [IvLegal]

theorem witness_InitValidatesIv :
    IvLegal Config.B .ecb [] ∧ IvLegal Config.B .ofb (rep 0#8 Config.B) ∧ ¬ IvLegal Config.B .ecb [0#8] ∧ ¬ IvLegal Config.B .cbc (rep 0#8 (Config.B + 1)) := by
  simp [IvLegal]

theorem witness_InitWritesCfgFromWord :
    (withMove (.command ⟨0x00000091#32, []⟩) zeros).input = [.command ⟨0x00000091#32, []⟩] ∧
    decode Config.B ⟨0x00000091#32, []⟩ = .command (.init .dec .ecb .pkcs5 0#8 []) ∧ IvLegal Config.B .ecb [] :=
  ⟨rfl, by decide, .inl ⟨rfl, rfl⟩⟩

theorem witness_UpdateCutsWholeUnits : State.reset.fsm = .uninit ∧ zeros.fsm ≠ .uninit := by decide

theorem witness_DofinalNoPadding :
    (pairs .enc .noPadding).fsm ≠ .uninit ∧ (pairs .enc .noPadding).cfg.pad = .noPadding ∧
    ((pairs .enc .noPadding).buf ++ [0#8, 0#8]).length % granularity Config.B (pairs .enc .noPadding).cfg = 0 ∧
    ((pairs .dec .noPadding).buf ++ [0#8]).length % granularity Config.B (pairs .dec .noPadding).cfg ≠ 0 := by decide

/-- The second clause in a state no INIT leaves; whether one does depends on `B` (for `B = 4` it is the last part of
`test_dofinal_pkcs5`). -/
theorem witness_DofinalEncPkcs5 :
    (ready Config.B (cfgOf .enc .cbc .pkcs5 0#8)).fsm ≠ .uninit ∧
    Config.B % granularity Config.B (ready Config.B (cfgOf .enc .cbc .pkcs5 0#8)).cfg = 0 ∧
    Config.B % granularity Config.B (ready Config.B (cfgOf .enc .cfb .pkcs5 0#8)).cfg ≠ 0 := by
  have := Config.B_bounds
  refine ⟨by decide, Nat.mod_self _, ?_⟩
  simp [granularity, ready, cfgOf]
  omega

/-- A whole block of padding is padding. -/
theorem unpad_padding : unpadPkcs5 Config.B (padPkcs5 Config.B []) = some [] := by
  have hB := Config.B_bounds
  have hn : ∀ i, Config.B - Config.B ≤ i → i < Config.B →
      ((rep (BitVec.ofNat 8 Config.B) Config.B).getD i 0#8).toNat = Config.B := by
    intro i _ hi
    rw [rep, List.getD_replicate _ hi, BitVec.toNat_ofNat]
    omega
  have he : padPkcs5 Config.B [] = rep (BitVec.ofNat 8 Config.B) Config.B := by simp [padPkcs5]
  rw [he]
  simp only [unpadPkcs5, hn (Config.B - 1) (by omega) (by omega), (padBytesOk_iff (Nat.le_refl Config.B)).mpr hn]
  simp
  omega

/-- A block of zeros has no padding. -/
theorem unpad_zeros : unpadPkcs5 Config.B (rep 0#8 Config.B) = none := by
  have hB := Config.B_bounds
  simp [unpadPkcs5, rep]

/-- What the machine in `opening` makes of a sealed block. -/
theorem run_opening {plain : Bytes} (h : plain.length = Config.B) :
    modeRun Config.primitive opening.cfg true
        (unitsOf (granularity Config.B opening.cfg) (opening.buf ++ sealed plain)) opening.regR = ⟨keystream, plain⟩ :=
  run_sealed h

theorem whole_opening {plain : Bytes} (h : plain.length = Config.B) :
    (opening.buf ++ sealed plain).length % granularity Config.B opening.cfg = 0 := by
  have : (sealed plain).length = Config.B := by simp [sealed, h, length_keystream]
  exact (congrArg (· % Config.B) this).trans (Nat.mod_self _)

theorem length_padding : (padPkcs5 Config.B []).length = Config.B := length_padPkcs5 (b := []) Config.B_bounds.1

theorem finalPart_opening {plain : Bytes} (h : plain.length = Config.B) :
    finalPart Config.primitive (updatePart Config.primitive (sealed plain) (openOutput opening)) =
      match unpadPkcs5 Config.B plain with
      | none => .error .badPadding
      | some body =>
        .ok { updatePart Config.primitive (sealed plain) (openOutput opening) with
              out := plain.take (plain.length - (Config.B - body.length)) } := by
  have ho : (updatePart Config.primitive (sealed plain) (openOutput opening)).out = plain := by
    rw [updatePart_eq]
    exact congrArg UnitResult.y (run_opening h)
  have hb : (updatePart Config.primitive (sealed plain) (openOutput opening)).buf = [] := by
    rw [updatePart_eq]
    exact drop_whole_eq_nil.mpr (whole_opening h)
  rw [finalPart_decPkcs5 rfl rfl, ho]
  simp [h, hb]
  all_goals rfl

theorem witness_DofinalDecPkcs5Strips :
    let t := opening.buf ++ sealed (padPkcs5 Config.B [])
    let run := modeRun Config.primitive opening.cfg true (unitsOf (granularity Config.B opening.cfg) t) opening.regR
    opening.fsm ≠ .uninit ∧ opening.cfg.dir = .dec ∧ opening.cfg.pad = .pkcs5 ∧
    t.length % granularity Config.B opening.cfg = 0 ∧ Config.B ≤ run.y.length ∧
    unpadPkcs5 Config.B (run.y.drop (run.y.length - Config.B)) = some [] := by
  refine ⟨by decide, rfl, rfl, whole_opening length_padding, ?_, ?_⟩
  · rw [run_opening length_padding]; exact length_padding.ge
  · rw [run_opening length_padding]; simp [length_padding, unpad_padding]

theorem witness_DofinalDecPkcs5Fails :
    (let t := opening.buf ++ sealed (rep 0#8 Config.B)
     let run := modeRun Config.primitive opening.cfg true (unitsOf (granularity Config.B opening.cfg) t) opening.regR
     t.length % granularity Config.B opening.cfg = 0 ∧ Config.B ≤ run.y.length ∧
       unpadPkcs5 Config.B (run.y.drop (run.y.length - Config.B)) = none) ∧
    (modeRun Config.primitive opening.cfg true (unitsOf (granularity Config.B opening.cfg) []) opening.regR).y.length <
      Config.B ∧
    ((pairs .dec .pkcs5).buf ++ [0#8]).length % granularity Config.B (pairs .dec .pkcs5).cfg ≠ 0 := by
  refine ⟨⟨whole_opening (length_rep _ _), ?_, ?_⟩, ?_, by decide⟩
  · rw [run_opening (length_rep _ _)]; simp
  · rw [run_opening (length_rep _ _)]; simp [unpad_zeros]
  · simp only [unitsOf_nil, modeRun]; exact Config.B_bounds.1

theorem witness_ResetRestoresSnapshot : zeros.fsm ≠ .uninit ∧ State.reset.fsm = .uninit := by decide
theorem witness_SaveTakesSnapshot : zeros.fsm ≠ .uninit ∧ State.reset.fsm = .uninit := by decide
theorem witness_RestoreRecoversRegister : zeros.sValid = true ∧ State.reset.sValid = false := by decide

theorem witness_EncryptRunsModeLayer :
    State.reset.fsm = .uninit ∧ (pairs .enc .pkcs5).fsm ≠ .uninit ∧
    [0#8].length % granularity Config.B (pairs .enc .pkcs5).cfg ≠ 0 ∧
    [0#8, 0#8].length % granularity Config.B (pairs .enc .pkcs5).cfg = 0 := by decide
theorem witness_DecryptRunsModeLayer :
    State.reset.fsm = .uninit ∧ (pairs .enc .noPadding).fsm ≠ .uninit ∧
    [0#8].length % granularity Config.B (pairs .enc .noPadding).cfg ≠ 0 ∧
    [0#8, 0#8].length % granularity Config.B (pairs .enc .noPadding).cfg = 0 := by decide

theorem witness_EcbUnitSteps : zeros.cfg.mode = .ecb ∧ (rep 5#8 Config.B).length = Config.B := ⟨rfl, by simp⟩
theorem witness_CbcUnitSteps :
    (ready Config.B (cfgOf .enc .cbc .pkcs5 0#8)).cfg.mode = .cbc ∧ (rep 5#8 Config.B).length = Config.B := ⟨rfl, by simp⟩
theorem witness_CfbUnitSteps :
    (ready Config.B (cfgOf .enc .cfb .noPadding 1#8)).cfg.mode = .cfb ∧
    [9#8].length = (ready Config.B (cfgOf .enc .cfb .noPadding 1#8)).cfg.w.toNat ∧
    (ready Config.B (cfgOf .enc .cfb .noPadding 1#8)).regR.length = Config.B := ⟨rfl, rfl, by simp [ready, State.resetOf]⟩
theorem witness_OfbUnitStep : opening.cfg.mode = .ofb ∧ (rep 5#8 Config.B).length = Config.B := ⟨rfl, by simp⟩

theorem witness_DispatcherRunsSelectedUnitStep :
    (rep 5#8 Config.B).length = granularity Config.B opening.cfg ∧ 0 < (rep 5#8 Config.B).length :=
  ⟨by simp [granularity, opening, ready, cfgOf], (length_rep _ _).symm ▸ Config.B_bounds.1⟩

theorem witness_UnitsRunInInputOrder :
    iv4.length = granularity toy.B (bound .enc .cbc .noPadding 0#8).cfg ∧ 0 < iv4.length := by decide

theorem witness_GranularityRule :
    (ready Config.B (cfgOf .enc .cfb .pkcs5 1#8)).cfg.mode = .cfb ∧ zeros.cfg.mode ≠ .cfb ∧
    Inv Config.B (ready Config.B (cfgOf .enc .cfb .pkcs5 1#8)) ∧ Inv Config.B zeros ∧ zeros.fsm ≠ .uninit :=
  ⟨rfl, by decide, ready_inv (legal_cfb1 _ _), ready_inv (legal_zero (by decide)), by decide⟩

theorem withMove_inv (m : HostMove) {s : State} (h : Inv Config.B s) : Inv Config.B (withMove m s) :=
  ⟨h.modeBound, h.uninitEmpty, h.bufShort, h.initializedEmpty, h.ecbZero, h.widthRange, h.widthZero, h.lengthR,
    h.lengthS, h.noOutput⟩

theorem witness_StepKeepsInvariant :
    Inv Config.B (withMove (.command ⟨0x00000005#32, []⟩) zeros) ∧
    ∃ t, step (withMove (.command ⟨0x00000005#32, []⟩) zeros) = .next t ∧ t.lastErr = .ok :=
  ⟨withMove_inv _ (ready_inv (legal_zero (by decide))), _, rfl, rfl⟩

theorem witness_FsmTransitions :
    (Instr.dofinal [0#8]).isCommand = true ∧ (zeros.sValid = true ↔ zeros.fsm ≠ .uninit) ∧
    (State.reset.sValid = true ↔ State.reset.fsm ≠ .uninit) := by decide

theorem witness_OnlyHardwareResetLeadsToUninit :
    (∃ t, step (withMove .hardwareReset zeros) = .next t ∧ zeros.fsm ≠ .uninit ∧ t.fsm = .uninit) ∧
    ∃ t, exec .reset zeros = .next t := ⟨⟨_, rfl, by decide, rfl⟩, _, rfl⟩

/-- The zero state with another register. -/
def moved : State := { opening with regR := rep 1#8 Config.B }

theorem moved_ne : rep 0#8 Config.B ≠ rep 1#8 Config.B := by
  intro h
  have := congrArg (fun x => x.getD 0 0#8) h
  rw [rep, rep, List.getD_replicate _ Config.B_bounds.1, List.getD_replicate _ Config.B_bounds.1] at this
  exact absurd this (by decide)

theorem witness_RegisterWriters :
    ∃ t, step (withMove (.command ⟨0x00000006#32, []⟩) moved) = .next t ∧
      t.regR ≠ (withMove (.command ⟨0x00000006#32, []⟩) moved).regR := ⟨_, rfl, moved_ne⟩

theorem witness_SnapshotWriters :
    ∃ t, step (withMove (.command ⟨0x00000005#32, []⟩) moved) = .next t ∧
      t.regS ≠ (withMove (.command ⟨0x00000005#32, []⟩) moved).regS := ⟨_, rfl, moved_ne.symm⟩

theorem witness_ConfigurationWriters :
    ∃ t, step (withMove (.command ⟨0x00000001#32, []⟩) moved) = .next t ∧
      t.cfg ≠ (withMove (.command ⟨0x00000001#32, []⟩) moved).cfg := ⟨_, rfl, by decide⟩

theorem witness_EarlyErrorsChangeOnlyLastErr :
    (Instr.update []).isCommand = true ∧ (∀ d, Instr.update [] ≠ .dofinal d) ∧
    ∃ t, exec (.update []) State.reset = .next t ∧ t.lastErr ≠ .ok := ⟨rfl, by simp, _, rfl, by decide⟩

theorem late_error : ∃ t, exec (.dofinal [0#8]) (pairs .enc .noPadding) = .next t ∧ t.lastErr ≠ .ok :=
  ⟨_, rfl, by decide⟩

theorem witness_LateErrorsLeaveTheUpdate :
    (pairs .enc .noPadding).fsm ≠ .uninit ∧
    ∃ t, exec (.dofinal [0#8]) (pairs .enc .noPadding) = .next t ∧ t.lastErr ≠ .ok := ⟨by decide, late_error⟩

theorem witness_FailingCommandReturnsNoOutput :
    ∃ t, step (withMove (.command ⟨0x00000004#32, []⟩) State.reset) = .next t ∧ t.lastErr ≠ .ok :=
  ⟨_, rfl, by decide⟩

theorem witness_LastErrorIsReadByNoCommand : (Instr.dofinal []).isCommand = true ∧ Instr.restore.isCommand = true := by
  decide

theorem witness_EarlyErrorsRepeat :
    State.reset.fsm = .uninit ∧ ∃ t, exec (.dofinal []) State.reset = .next t ∧ t.lastErr ≠ .ok :=
  ⟨rfl, _, rfl, by decide⟩

theorem witness_BadPaddingIsUniform :
    Inv Config.B opening ∧
    ∃ t, exec (.dofinal (sealed (rep 0#8 Config.B))) opening = .next t ∧ t.lastErr = .badPadding := by
  refine ⟨ready_inv (legal_zero (by decide)),
    raise .badPadding (updatePart Config.primitive (sealed (rep 0#8 Config.B)) (openOutput opening)), ?_, rfl⟩
  have hf := finalPart_opening (length_rep 0#8 Config.B)
  simp only [unpad_zeros] at hf
  simp only [exec, execDofinal, dofinalCommand, hf]
  rfl

/-- DOFINAL strips a whole block of padding. -/
theorem opening_ok : ∃ t, exec (.dofinal (sealed (padPkcs5 Config.B []))) opening = .next t ∧ t.lastErr = .ok := by
  have hf := finalPart_opening length_padding
  simp only [unpad_padding] at hf
  refine ⟨complete { updatePart Config.primitive (sealed (padPkcs5 Config.B [])) (openOutput opening) with
    out := (padPkcs5 Config.B []).take ((padPkcs5 Config.B []).length - (Config.B - ([] : Bytes).length))
    fsm := .finalized }, ?_, rfl⟩
  simp only [exec, execDofinal, dofinalCommand, hf]
  rfl

def padding : State := ready Config.B (cfgOf .enc .ecb .pkcs5 0#8)

theorem padding_ok : ∃ t, exec (.dofinal []) padding = .next t ∧ t.lastErr = .ok := by
  have hf : finalPart Config.primitive (updatePart Config.primitive [] (openOutput padding)) =
      .ok { modeOp Config.primitive false
              (padPkcs5 Config.B (updatePart Config.primitive [] (openOutput padding)).buf)
              (updatePart Config.primitive [] (openOutput padding)) with buf := [] } := by
    rw [finalPart_encPkcs5 rfl rfl]
    exact if_pos (Nat.mod_self Config.B)
  refine ⟨complete { modeOp Config.primitive false (padPkcs5 Config.B (updatePart Config.primitive [] (openOutput padding)).buf)
    (updatePart Config.primitive [] (openOutput padding)) with buf := [], fsm := .finalized }, ?_, rfl⟩
  simp only [exec, execDofinal, dofinalCommand, hf]
  rfl

/-- CFB, one byte at a time. -/
def bytewise : State := ready Config.B (cfgOf .enc .cfb .noPadding 1#8)

theorem bytewise_ok : ∃ t, exec (.dofinal [7#8]) bytewise = .next t ∧ t.lastErr = .ok := ⟨_, rfl, rfl⟩

theorem direct_ok (dec : Bool) : ∃ t, directCommand Config.primitive dec [] zeros = .next t ∧ t.lastErr = .ok := by
  refine ⟨complete (modeOp Config.primitive dec [] (openOutput zeros)), ?_, rfl⟩
  cases dec <;> rfl

/-- One command of each kind that succeeds from a state with the invariant; DOFINAL in each of its three clauses. -/
theorem witness_OutputLengthLaws :
    Inv Config.B zeros ∧ Inv Config.B opening ∧ Inv Config.B padding ∧ Inv Config.B bytewise ∧
    (∃ t, exec (.update [0#8]) zeros = .next t ∧ t.lastErr = .ok) ∧
    (∃ t, exec (.dofinal [7#8]) bytewise = .next t ∧ t.lastErr = .ok) ∧
    (∃ t, exec (.dofinal []) padding = .next t ∧ t.lastErr = .ok) ∧
    (∃ t, exec (.dofinal (sealed (padPkcs5 Config.B []))) opening = .next t ∧ t.lastErr = .ok) ∧
    (∃ t, exec (.encrypt []) zeros = .next t ∧ t.lastErr = .ok) ∧
    (∃ t, exec (.decrypt []) zeros = .next t ∧ t.lastErr = .ok) ∧
    (∃ t, exec (.init .enc .ecb .noPadding 0#8 []) zeros = .next t ∧ t.lastErr = .ok) ∧
    (∃ t, exec .reset zeros = .next t ∧ t.lastErr = .ok) ∧ (∃ t, exec .save zeros = .next t ∧ t.lastErr = .ok) ∧
    ∃ t, exec .restore zeros = .next t ∧ t.lastErr = .ok :=
  ⟨ready_inv (legal_zero (by decide)), ready_inv (legal_zero (by decide)), ready_inv (legal_zero (by decide)),
    ready_inv (legal_cfb1 _ _), ⟨_, rfl, rfl⟩, bytewise_ok, padding_ok, opening_ok, direct_ok false, direct_ok true, ⟨_, rfl, rfl⟩, ⟨_, rfl, rfl⟩,
    ⟨_, rfl, rfl⟩, _, rfl, rfl⟩

theorem witness_OutLenIsBounded :
    Inv Config.B (withMove (.command ⟨0x00000102#32, [7#8]⟩) zeros) ∧
    ∃ t, step (withMove (.command ⟨0x00000102#32, [7#8]⟩) zeros) = .next t :=
  ⟨withMove_inv _ (ready_inv (legal_zero (by decide))), _, rfl⟩

/-- A state of `cfg` with one byte waiting; the invariant needs a unit of two bytes, so `B` at least 2. -/
theorem witness_ZeroLengthCommands :
    Inv Config.B zeros ∧ zeros.fsm ≠ .uninit ∧ zeros.cfg.pad = .noPadding ∧ zeros.buf = [] ∧
    Inv Config.B opening ∧ opening.fsm ≠ .uninit ∧ opening.cfg.pad = .pkcs5 ∧ opening.cfg.dir = .dec ∧
    Inv Config.B padding ∧ padding.fsm ≠ .uninit ∧ padding.cfg.pad = .pkcs5 ∧ padding.cfg.dir = .enc ∧
    Config.B % granularity Config.B padding.cfg = 0 ∧
    (2 ≤ Config.B → Inv Config.B { zeros with fsm := .updating, buf := [7#8] }) := by
  refine ⟨ready_inv (legal_zero (by decide)), by decide, rfl, rfl, ready_inv (legal_zero (by decide)), by decide, rfl,
    rfl, ready_inv (legal_zero (by decide)), by decide, rfl, rfl, Nat.mod_self _, fun hB => ?_⟩
  have h := ready_inv (c := cfgOf .enc .ecb .noPadding 0#8) (legal_zero (by decide))
  exact ⟨by decide, nofun, fun _ => hB, nofun, fun hm _ => h.ecbZero hm (by decide), nofun, h.widthZero, h.lengthR,
    h.lengthS, rfl⟩

theorem witness_FinalizedActsAsInitialized : (Instr.dofinal [0#8]).isCommand = true ∧ Instr.save.isCommand = true := by
  decide

theorem witness_DirectCommandsBypassTheBuffer :
    Instr.encrypt [] ∈ [Instr.encrypt [], Instr.decrypt []] ∧ Instr.decrypt [] ∈ [Instr.encrypt [], Instr.decrypt []] := by
  decide

theorem witness_UpdateChunking : zeros.fsm ≠ .uninit := by decide

theorem witness_DofinalChunking :
    padding.fsm ≠ .uninit ∧ padding.cfg.dir = .enc ∧ (pairs .dec .noPadding).fsm ≠ .uninit ∧
    (pairs .dec .noPadding).cfg.pad = .noPadding := by decide

theorem bound_inv {dir : Dir} {mode : Mode} {pad : Pad} {w : BitVec 8} (h : CfgLegal 4 (cfgOf dir mode pad w))
    (hm : mode ≠ .ecb) : Inv 4 (bound dir mode pad w) := by
  have hg := (granularity_bounds (by decide) h).1
  exact ⟨by simp [bound, ready], nofun, fun _ => hg, fun _ => rfl, fun he => absurd he hm, fun hm _ => h.range hm, h.zero,
    rfl, rfl, rfl⟩

/-- CBC with the toy primitive, which has `PRIM_INVERSE`, and CFB, which needs none. -/
theorem witness_ModeLayerRoundTrip :
    Inv toy.B (bound .enc .cbc .noPadding 0#8) ∧ (bound .enc .cbc .noPadding 0#8).fsm ≠ .uninit ∧
    [1#8, 2#8, 3#8, 4#8].length % granularity toy.B (bound .enc .cbc .noPadding 0#8).cfg = 0 ∧ toy.Inverse ∧
    Inv toy.B (bound .enc .cfb .noPadding 3#8) ∧ (bound .enc .cfb .noPadding 3#8).fsm ≠ .uninit ∧
    [1#8, 2#8, 3#8].length % granularity toy.B (bound .enc .cfb .noPadding 3#8).cfg = 0 ∧
    (bound .enc .cfb .noPadding 3#8).cfg.mode ≠ .ecb ∧ (bound .enc .cfb .noPadding 3#8).cfg.mode ≠ .cbc :=
  ⟨bound_inv ⟨by decide, by decide⟩ (by decide), by decide, by decide, toy_inverse,
    bound_inv ⟨by decide, by decide⟩ (by decide), by decide, by decide, by decide, by decide⟩

theorem witness_EngineRoundTrip :
    legalWidth toy.B .cbc 0 = true ∧ IvLegal toy.B .cbc iv4 ∧ toy.Inverse ∧
    toy.B % granularity toy.B (cfgOf .enc .cbc .pkcs5 0#8) = 0 ∧
    legalWidth toy.B .cfb 3 = true ∧ IvLegal toy.B .cfb iv4 ∧
    [1#8, 2#8, 3#8].length % granularity toy.B (cfgOf .enc .cfb .noPadding 3#8) = 0 :=
  ⟨by decide, .inr ⟨by decide, rfl⟩, toy_inverse, by decide, by decide, .inr ⟨by decide, rfl⟩, by decide⟩

theorem witness_LaterUnitsNeverChangeEarlierOutput :
    Inv Config.B opening ∧ opening.fsm ≠ .uninit ∧ (rep 1#8 Config.B).length % granularity Config.B opening.cfg = 0 ∧
    (rep 2#8 Config.B).length % granularity Config.B opening.cfg = 0 ∧ rep 1#8 Config.B ≠ rep 2#8 Config.B := by
  refine ⟨ready_inv (legal_zero (by decide)), by decide, ?_, ?_, ?_⟩
  · rw [length_rep]; exact Nat.mod_self _
  · rw [length_rep]; exact Nat.mod_self _
  · intro h
    have := congrArg (fun x => x.getD 0 0#8) h
    rw [rep, rep, List.getD_replicate _ Config.B_bounds.1, List.getD_replicate _ Config.B_bounds.1] at this
    exact absurd this (by decide)

theorem witness_SaveRestoreIdempotence :
    moved.fsm ≠ .uninit ∧ (rep 1#8 Config.B).length % granularity Config.B moved.cfg = 0 :=
  ⟨by decide, (length_rep _ _).symm ▸ Nat.mod_self Config.B⟩

theorem witness_OfbFlipsOnlyTheSameBits :
    Inv Config.B opening ∧ opening.fsm ≠ .uninit ∧ opening.cfg.mode = .ofb ∧
    (rep 1#8 Config.B).length % Config.B = 0 ∧ (rep 1#8 Config.B).length = (rep 2#8 Config.B).length :=
  ⟨ready_inv (legal_zero (by decide)), by decide, rfl, (length_rep _ _).symm ▸ Nat.mod_self Config.B, by simp⟩

theorem witness_RegisterIsRecentCiphertext :
    Inv Config.B (ready Config.B (cfgOf .enc .cfb .noPadding 1#8)) ∧
    (ready Config.B (cfgOf .enc .cfb .noPadding 1#8)).fsm ≠ .uninit ∧
    [7#8, 8#8].length % granularity Config.B (ready Config.B (cfgOf .enc .cfb .noPadding 1#8)).cfg = 0 ∧
    Inv Config.B (ready Config.B (cfgOf .enc .cbc .noPadding 0#8)) ∧
    (rep 1#8 Config.B).length % granularity Config.B (ready Config.B (cfgOf .enc .cbc .noPadding 0#8)).cfg = 0 :=
  ⟨ready_inv (legal_cfb1 _ _), by decide, by decide, ready_inv (legal_zero (by decide)),
    (length_rep _ _).symm ▸ Nat.mod_self Config.B⟩

/-- Both sides at `n = 1`, `n = B`, and a block that is refused. -/
theorem witness_UnpadAcceptsExactly :
    unpadPkcs5 4 [0x41#8, 0x42#8, 0x43#8, 1#8] = some [0x41#8, 0x42#8, 0x43#8] ∧ unpadPkcs5 4 (rep 4#8 4) = some [] ∧
    unpadPkcs5 4 (rep 5#8 4) = none := by decide

theorem witness_PaddingRoundTrip : 4 ≤ 255 ∧ ([] : Bytes).length < 4 ∧ [1#8, 2#8, 3#8].length < 4 := by decide

end Sys2Proof.Tests
end

namespace Sys2Proof.Proofs

open Sys2Proof Sys2Proof.Machine

/-- Settles O6: the decoded branch of `step` (00_scope.md R6), which `step_command` states once. -/
theorem stepRunsDecodedInstruction : Obligations.StepRunsDecodedInstruction :=
  fun _ _ _ _ hinput hdecode => step_command hinput hdecode

end Sys2Proof.Proofs

/-! The invariants of 10_state.md R34. `inv_of_bound` says what a state that holds a mode owes; the effect of each command
is checked against it. Before the response a state may hold output, so `Inv B (openOutput s)` is what is said of it. -/

namespace Sys2Proof.Machine

/-! ## Registers and configurations that meet R34 -/

/-- A value `R` and `S` may hold under a configuration: a block, the zero block under ECB (10_state.md R25, R26, R34
item 5). -/
structure RegLegal (B : Nat) (cfg : Cfg) (r : Bytes) : Prop where
  length : r.length = B
  ecbZero : cfg.mode = .ecb → r = rep 0#8 B

theorem Inv.regLegalR {B : Nat} {s : State} (h : Inv B s) (hf : s.fsm ≠ .uninit) : RegLegal B s.cfg s.regR :=
  ⟨h.lengthR, fun hm => (h.ecbZero hm hf).1⟩

theorem Inv.regLegalS {B : Nat} {s : State} (h : Inv B s) (hf : s.fsm ≠ .uninit) : RegLegal B s.cfg s.regS :=
  ⟨h.lengthS, fun hm => (h.ecbZero hm hf).2⟩

/-- What INIT loads is legal for the mode whose IV check it passed (47_accumulator.md R201). -/
theorem regLegal_initialRegister {B : Nat} {cfg : Cfg} {iv : Bytes} (h : ivAccepted B cfg.mode iv = true) :
    RegLegal B cfg (initialRegister B cfg.mode iv) := by
  cases hm : cfg.mode <;> rw [hm] at h
  case ecb => exact ⟨length_rep _ _, fun _ => rfl⟩
  all_goals exact ⟨eq_of_beq h, fun he => absurd (hm.symm.trans he) nofun⟩

/-- A run of unit steps leaves a legal register: a block (R103), and under ECB the one it found (41_ecb.md R120). -/
theorem regLegal_modeRun {P : Primitive} {cfg : Cfg} {r : Bytes} (dec : Bool) (t : Bytes) (hc : CfgLegal P.B cfg)
    (hr : RegLegal P.B cfg r) : RegLegal P.B cfg (modeRun P cfg dec (unitsOf (granularity P.B cfg) t) r).nextR :=
  ⟨(length_modeRun_any dec hc t hr.length).2, fun hm => (modeRun_ecb_nextR hm dec _ r).trans (hr.ecbZero hm)⟩

theorem cfgLegal_of_legalWidth {B : Nat} {cfg : Cfg} (h : legalWidth B cfg.mode cfg.w.toNat = true) :
    CfgLegal B cfg := by
  cases hm : cfg.mode <;> simp only [legalWidth, hm, Bool.and_eq_true, decide_eq_true_eq, beq_iff_eq] at h
  case cfb => exact ⟨fun _ => h, fun hne => absurd hm hne⟩
  all_goals exact ⟨fun he => absurd (hm.symm.trans he) nofun, fun _ => BitVec.eq_of_toNat_eq h⟩

/-- What an update part keeps in `BUF` is less than one unit (47_accumulator.md R204). -/
theorem length_updatePart_buf_lt {P : Primitive} (data : Bytes) {s : State} (hc : CfgLegal P.B s.cfg) :
    (updatePart P data s).buf.length < granularity P.B s.cfg := by
  have hg : 0 < granularity P.B s.cfg := (granularity_bounds P.bounds.1 hc).1
  have hdiv := Nat.div_add_mod' (s.buf ++ data).length (granularity P.B s.cfg)
  have hmod := Nat.mod_lt (s.buf ++ data).length hg
  simp only [updatePart_eq, List.length_drop]
  omega

/-! ## Rules of the invariant -/

theorem inv_resetOf (B : Nat) : Inv B (State.resetOf B) where
  modeBound := by simp [State.resetOf]
  uninitEmpty _ := rfl
  bufShort h := absurd rfl h
  initializedEmpty _ := rfl
  ecbZero _ h := absurd rfl h
  widthRange _ h := absurd rfl h
  widthZero _ := rfl
  lengthR := length_rep _ _
  lengthS := length_rep _ _
  noOutput := rfl

/-- The invariant reads neither the host's channels nor `LAST_ERR`. -/
theorem Inv.withChannels {B : Nat} {s : State} (h : Inv B s) (e : Err) (input : List HostMove)
    (responses : List Response) :
    Inv B { s with lastErr := e, input := input, responses := responses } :=
  ⟨h.modeBound, h.uninitEmpty, h.bufShort, h.initializedEmpty, h.ecbZero, h.widthRange, h.widthZero, h.lengthR,
    h.lengthS, h.noOutput⟩

theorem Inv.openOutput {B : Nat} {s : State} (h : Inv B s) : Inv B (openOutput s) :=
  ⟨h.modeBound, h.uninitEmpty, h.bufShort, h.initializedEmpty, h.ecbZero, h.widthRange, h.widthZero, h.lengthR,
    h.lengthS, rfl⟩

/-- Responding keeps the invariant of a state whose only offence is the output it holds. -/
theorem inv_respond {B : Nat} {m : State} (e : Err) (v : Bytes) (h : Inv B (openOutput m)) : Inv B (respond e v m) :=
  h.withChannels e _ _

theorem inv_hardwareReset (B : Nat) (s : State) : Inv B (hardwareReset B s) :=
  (inv_resetOf B).withChannels _ _ _

/-- A state that holds a mode meets R34 when its registers and its configuration are legal and `BUF` is short. -/
theorem inv_of_bound {B : Nat} {s : State} (hf : s.fsm ≠ .uninit) (hv : s.sValid = true) (hc : CfgLegal B s.cfg)
    (hR : RegLegal B s.cfg s.regR) (hS : RegLegal B s.cfg s.regS) (hshort : s.buf.length < granularity B s.cfg)
    (hinit : s.fsm = .initialized → s.buf = []) : Inv B (openOutput s) where
  modeBound := ⟨fun _ => hf, fun _ => hv⟩
  uninitEmpty h := absurd h hf
  bufShort _ := hshort
  initializedEmpty := hinit
  ecbZero hm _ := ⟨hR.ecbZero hm, hS.ecbZero hm⟩
  widthRange hm _ := hc.range hm
  widthZero := hc.zero
  lengthR := hR.length
  lengthS := hS.length
  noOutput := rfl

/-! ## The effects of the commands keep it -/

theorem inv_bindMode {P : Primitive} {cfg : Cfg} {iv : Bytes} (s : State) (hc : CfgLegal P.B cfg)
    (hiv : ivAccepted P.B cfg.mode iv = true) : Inv P.B (openOutput (bindMode P.B cfg iv s)) :=
  inv_of_bound nofun rfl hc (regLegal_initialRegister hiv) (regLegal_initialRegister hiv)
    (granularity_bounds P.bounds.1 hc).1 (fun _ => rfl)

section Bound

variable {P : Primitive} {s : State} (h : Inv P.B (openOutput s)) (hf : s.fsm ≠ .uninit)
include h hf

theorem inv_updatePart (data : Bytes) : Inv P.B (openOutput (updatePart P data s)) := by
  have hc : CfgLegal P.B s.cfg := h.cfgLegal hf
  have hR : RegLegal P.B s.cfg (updatePart P data s).regR := by
    rw [updatePart_eq]
    exact regLegal_modeRun _ _ hc (h.regLegalR hf)
  exact inv_of_bound nofun (h.modeBound.mpr hf) hc hR (h.regLegalS hf) (length_updatePart_buf_lt data hc) nofun

/-- A successful final part empties `BUF`, and moves `R` only by running the padded block. -/
theorem inv_finalPart {u : State} (hu : finalPart P s = .ok u) : Inv P.B (openOutput { u with fsm := .finalized }) := by
  obtain ⟨hbuf, hcfg, hregS, hsv, -, -, -, hregR⟩ := finalPart_ok hu
  have hc : CfgLegal P.B s.cfg := h.cfgLegal hf
  have hR : RegLegal P.B s.cfg u.regR := by
    rcases hregR with hkept | ⟨-, -, hpadded⟩
    · exact hkept ▸ h.regLegalR hf
    · exact hpadded ▸ regLegal_modeRun false _ hc (h.regLegalR hf)
  refine inv_of_bound nofun (hsv.trans (h.modeBound.mpr hf)) ?_ ?_ ?_ ?_ nofun <;> simp only [hcfg, hregS, hbuf]
  · exact hc
  · exact hR
  · exact h.regLegalS hf
  · exact (granularity_bounds P.bounds.1 hc).1

theorem inv_restart : Inv P.B (openOutput { restoreSnapshot s with buf := [], fsm := .initialized }) :=
  have hc : CfgLegal P.B s.cfg := h.cfgLegal hf
  inv_of_bound nofun (h.modeBound.mpr hf) hc (h.regLegalS hf) (h.regLegalS hf) (granularity_bounds P.bounds.1 hc).1
    (fun _ => rfl)

theorem inv_takeSnapshot : Inv P.B (openOutput (takeSnapshot s)) :=
  inv_of_bound hf rfl (h.cfgLegal hf) (h.regLegalR hf) (h.regLegalR hf) (h.bufShort hf) h.initializedEmpty

theorem inv_restoreSnapshot : Inv P.B (openOutput (restoreSnapshot s)) :=
  inv_of_bound hf (h.modeBound.mpr hf) (h.cfgLegal hf) (h.regLegalS hf) (h.regLegalS hf) (h.bufShort hf)
    h.initializedEmpty

theorem inv_modeOp (dec : Bool) (data : Bytes) : Inv P.B (openOutput (modeOp P dec data s)) :=
  inv_of_bound hf (h.modeBound.mpr hf) (h.cfgLegal hf) (regLegal_modeRun dec data (h.cfgLegal hf) (h.regLegalR hf))
    (h.regLegalS hf) (h.bufShort hf) h.initializedEmpty

end Bound

/-- Every command keeps the invariant, INIT with a legal width among them (30_encoding.md R77). -/
theorem exec_keeps_inv {i : Instr} {s t : State} (hc : i.isCommand = true)
    (hw : ∀ dir mode pad w iv, i = .init dir mode pad w iv → legalWidth Config.B mode w.toNat = true)
    (h : Inv Config.B s) (he : exec i s = .next t) : Inv Config.B t := by
  have ho : Inv Config.primitive.B (openOutput (openOutput s)) := h.openOutput
  rcases exec_next hc he with ⟨e, rfl, -⟩ | ⟨dir, mode, pad, w, iv, rfl, hiv, rfl⟩ | ⟨hf, d, rfl, rfl⟩ |
    ⟨hf, d, e, rfl, -, rfl⟩ | ⟨hf, d, u, rfl, hu, rfl⟩ | ⟨hf, rfl, rfl⟩ | ⟨hf, rfl, rfl⟩ | ⟨hv, rfl, rfl⟩ |
    ⟨hf, d, dec, rfl, -, rfl⟩
  · exact inv_respond _ _ h.openOutput
  · have hcfg := cfgLegal_of_legalWidth (cfg := ⟨dir, mode, pad, w⟩) (hw _ _ _ _ _ rfl)
    exact inv_respond _ _ (inv_bindMode (P := Config.primitive) _ hcfg hiv)
  · exact inv_respond _ _ (inv_updatePart ho hf d)
  · exact inv_respond _ _ (inv_updatePart ho hf d)
  · exact inv_respond _ _ (inv_finalPart (inv_updatePart ho hf d) nofun hu)
  · exact inv_respond _ _ (inv_restart ho hf)
  · exact inv_respond _ _ (inv_takeSnapshot ho hf)
  · exact inv_respond _ _ (inv_restoreSnapshot ho (h.modeBound.mp hv))
  · exact inv_respond _ _ (inv_modeOp ho hf dec d)

end Sys2Proof.Machine

namespace Sys2Proof.Proofs

open Sys2Proof Sys2Proof.Machine

/-- Settles O33: a step waits, resets, runs a decoded command (whose width the decoder checked) or refuses an illegal
word, and each of the four keeps the invariant. -/
theorem stepKeepsInvariant : Obligations.StepKeepsInvariant := by
  intro s t h hstep
  rcases step_next hstep with ⟨-, rfl⟩ | ⟨rest, -, rfl⟩ | ⟨q, rest, i, -, hq, he⟩ | ⟨q, rest, why, -, -, rfl⟩
  · exact h
  · exact inv_hardwareReset _ _
  · have hw := fun dir mode pad w iv (hi : i = .init dir mode pad w iv) => decode_init_width (hi ▸ hq)
    exact exec_keeps_inv (decode_isCommand hq) hw (h.withChannels s.lastErr rest s.responses) he
  · exact inv_respond _ _ (h.withChannels s.lastErr rest s.responses).openOutput

/-- Settles O32: the reset values meet each item of the invariant, and no mode is bound. -/
theorem invariantAtReset : Obligations.InvariantAtReset := inv_resetOf Config.B

end Sys2Proof.Proofs

/-! Who writes `CFG`, `S` and `S_VALID` (10_state.md R23, R26, R27). -/

namespace Sys2Proof.Machine

/-- INIT with an accepted IV binds its configuration, in every state (47_accumulator.md R200). -/
theorem exec_init_accepted {dir : Dir} {mode : Mode} {pad : Pad} {w : BitVec 8} {iv : Bytes}
    (hiv : IvLegal Config.B mode iv) (s : State) :
    exec (.init dir mode pad w iv) s = .next (complete (bindMode Config.B ⟨dir, mode, pad, w⟩ iv (openOutput s))) :=
  if_pos ((ivAccepted_iff _ _ _).mpr hiv)

/-- A command keeps `CFG`, or is an INIT that succeeded and holds its fields there. -/
theorem exec_cfg {i : Instr} {s t : State} (hc : i.isCommand = true) (he : exec i s = .next t) :
    t.cfg = s.cfg ∨
    ∃ dir mode pad w iv, i = .init dir mode pad w iv ∧ t.lastErr = .ok ∧ t.cfg = ⟨dir, mode, pad, w⟩ := by
  rcases exec_next hc he with ⟨e, rfl, -⟩ | ⟨dir, mode, pad, w, iv, rfl, -, rfl⟩ | ⟨-, d, -, rfl⟩ |
    ⟨-, d, e, -, -, rfl⟩ | ⟨-, d, u, -, hu, rfl⟩ | ⟨-, -, rfl⟩ | ⟨-, -, rfl⟩ | ⟨-, -, rfl⟩ | ⟨-, d, dec, -, -, rfl⟩
  case inr.inl => exact .inr ⟨dir, mode, pad, w, iv, rfl, rfl, rfl⟩
  case inr.inr.inr.inr.inl =>
    obtain ⟨-, hcfg, -⟩ := finalPart_ok hu
    exact .inl hcfg
  all_goals exact .inl rfl

/-- A command keeps `S` and `S_VALID`, or is SAVE or an INIT that succeeded and leaves `S = R` valid. -/
theorem exec_snapshot {i : Instr} {s t : State} (hc : i.isCommand = true) (he : exec i s = .next t) :
    (t.regS = s.regS ∧ t.sValid = s.sValid) ∨
    (t.regS = t.regR ∧ t.sValid = true ∧ t.lastErr = .ok ∧
      (i = .save ∨ ∃ dir mode pad w iv, i = .init dir mode pad w iv)) := by
  rcases exec_next hc he with ⟨e, rfl, -⟩ | ⟨dir, mode, pad, w, iv, rfl, -, rfl⟩ | ⟨-, d, -, rfl⟩ |
    ⟨-, d, e, -, -, rfl⟩ | ⟨-, d, u, -, hu, rfl⟩ | ⟨-, -, rfl⟩ | ⟨-, rfl, rfl⟩ | ⟨-, -, rfl⟩ | ⟨-, d, dec, -, -, rfl⟩
  case inr.inl => exact .inr ⟨rfl, rfl, rfl, .inr ⟨dir, mode, pad, w, iv, rfl⟩⟩
  case inr.inr.inr.inr.inl =>
    obtain ⟨-, -, hregS, hsv, -⟩ := finalPart_ok hu
    exact .inl ⟨hregS, hsv⟩
  case inr.inr.inr.inr.inr.inr.inl => exact .inr ⟨rfl, rfl, rfl, .inl rfl⟩
  all_goals exact .inl ⟨rfl, rfl⟩

end Sys2Proof.Machine

namespace Sys2Proof.Proofs

open Sys2Proof Sys2Proof.Machine

/-- Settles O37: of the steps that are no hardware reset only a decoded command can write `S` or `S_VALID`. -/
theorem snapshotWriters : Obligations.SnapshotWriters := by
  intro s t hstep
  rcases step_next hstep with ⟨-, rfl⟩ | ⟨rest, hin, -⟩ | ⟨q, rest, i, hin, hq, he⟩ | ⟨q, rest, why, -, -, rfl⟩
  · exact .inr ⟨id, fun hne => absurd rfl hne⟩
  · exact .inl ⟨rest, hin⟩
  · rcases exec_snapshot (decode_isCommand hq) he with ⟨hS, hv⟩ | ⟨hS, hv, hok, hi⟩
    · exact .inr ⟨hv.trans, fun hne => absurd hS hne⟩
    · exact .inr ⟨fun _ => hv, fun _ => ⟨hS, hv, hok, q, rest, i, hin, hq, hi⟩⟩
  · exact .inr ⟨id, fun hne => absurd rfl hne⟩

/-- Settles O38: of the steps that are no hardware reset only a decoded INIT that succeeds writes `CFG`. -/
theorem configurationWriters : Obligations.ConfigurationWriters := by
  intro s t hstep hne
  rcases step_next hstep with ⟨-, rfl⟩ | ⟨rest, hin, -⟩ | ⟨q, rest, i, hin, hq, he⟩ | ⟨q, rest, why, -, -, rfl⟩
  · exact absurd rfl hne
  · exact .inl ⟨rest, hin⟩
  · rcases exec_cfg (decode_isCommand hq) he with hkept | ⟨dir, mode, pad, w, iv, rfl, hok, hcfg⟩
    · exact absurd hkept hne
    · exact .inr ⟨q, rest, dir, mode, pad, w, iv, hin, hq, hok, hcfg⟩
  · exact absurd rfl hne

end Sys2Proof.Proofs

/-! The 32-bit views: `CFG` (10_state.md R23) and `STATUS` (R33). -/

namespace Sys2Proof

/-- The fields of a decoded INIT are those of its word (30_encoding.md R73). -/
theorem decode_init_fields {B : Nat} {q : Request} {dir : Dir} {mode : Mode} {pad : Pad} {w : BitVec 8} {iv : Bytes}
    (h : decode B q = .command (.init dir mode pad w iv)) :
    dir = dirOfBits (dirField q.word) ∧ mode = modeOfBits (modeField q.word) ∧ pad = padOfBits (padField q.word) ∧
      w = widthField q.word := by
  obtain ⟨-, -, hc⟩ := decode_command h
  simp only [commandOf] at hc
  split at hc
  · cases hc; exact ⟨rfl, rfl, rfl, rfl⟩
  · repeat' split at hc
    all_goals cases hc

/-- A field put back where it was read. -/
theorem getLsbD_placeField_extractLsb' (w : Word) (lo n i : Nat) :
    (placeField lo (w.extractLsb' lo n)).getLsbD i = (decide (lo ≤ i ∧ i < lo + n) && w.getLsbD i) := by
  rw [getLsbD_placeField, BitVec.getLsbD_extractLsb']
  by_cases hlo : lo ≤ i
  · rw [Nat.add_sub_cancel' hlo]
    by_cases hi : i < 32
    · simp [hlo, hi, Nat.sub_lt_iff_lt_add hlo, Nat.add_comm]
    · simp [BitVec.getLsbD_of_ge w i (by omega)]
  · simp [hlo]

/-- The fields `DIR`, `MODE`, `PAD` and `W` of a word are its bits 15:4. -/
theorem placed_cfgFields (w : Word) :
    placeField 4 (dirField w) ||| placeField 5 (modeField w) ||| placeField 7 (padField w) |||
      placeField 8 (widthField w) = w &&& 0x0000FFF0#32 := by
  refine BitVec.eq_of_getLsbD_eq fun i hi => ?_
  have hmask : (0x0000FFF0#32).getLsbD i = decide (4 ≤ i ∧ i < 16) := by
    revert i; decide
  simp only [BitVec.getLsbD_or, BitVec.getLsbD_and, dirField, modeField, padField, widthField,
    getLsbD_placeField_extractLsb', hmask]
  rw [← Bool.and_or_distrib_right, ← Bool.and_or_distrib_right, ← Bool.and_or_distrib_right, Bool.and_comm]
  congr 1
  simp only [← Bool.decide_or]
  exact decide_eq_decide.mpr (by omega)

namespace Machine

theorem cfgWord_decode_init {B : Nat} {q : Request} {dir : Dir} {mode : Mode} {pad : Pad} {w : BitVec 8} {iv : Bytes}
    (h : decode B q = .command (.init dir mode pad w iv)) :
    cfgWord ⟨dir, mode, pad, w⟩ = q.word &&& 0x0000FFF0#32 := by
  obtain ⟨rfl, rfl, rfl, rfl⟩ := decode_init_fields h
  simp only [cfgWord, dirBits_dirOfBits, modeBits_modeOfBits, padBits_padOfBits, placed_cfgFields]

/-- The fields of `STATUS` (R33), each read back beside the others. -/
theorem statusWord_fields (s : State) :
    (statusWord s).extractLsb' 0 4 = errCode s.lastErr ∧ (statusWord s).extractLsb' 4 2 = fsmBits s.fsm ∧
    (statusWord s).extractLsb' 6 1 = BitVec.ofBool s.sValid ∧ (statusWord s).extractLsb' 7 1 = 0#1 ∧
    (statusWord s).extractLsb' 8 8 = bufCnt s ∧ (statusWord s).extractLsb' 16 16 = 0#16 := by
  simp only [statusWord, BitVec.extractLsb'_or]
  refine ⟨?_, ?_, ?_, ?_, ?_, ?_⟩ <;>
    simp (disch := decide) only [extractLsb'_placeField, extractLsb'_placeField_disjoint, BitVec.or_zero,
      BitVec.zero_or]

end Machine

end Sys2Proof

namespace Sys2Proof.Proofs

open Sys2Proof Sys2Proof.Machine

/-- Settles O13: the step binds the decoded fields, and placing the fields of a word back gives its bits 15:4. -/
theorem initWritesCfgFromWord : Obligations.InitWritesCfgFromWord :=
  fun s _ rest _ _ _ _ _ hin hq hiv =>
    ⟨_, (step_command hin hq).trans (exec_init_accepted hiv { s with input := rest }), cfgWord_decode_init hq⟩

/-- Settles O10: `STATUS` does not show the output string, so closing it leaves the word of the response as it is. -/
theorem responseCarriesStatus : Obligations.ResponseCarriesStatus :=
  ⟨statusWord_fields, fun _ _ _ => rfl⟩

end Sys2Proof.Proofs

/-! What commands do not read: `LAST_ERR` (10_state.md R32), and `CFG.DIR`, `CFG.PAD` and `BUF` for ENCRYPT and DECRYPT
(R24, 40_dispatcher.md R105 to R107). -/

namespace Sys2Proof.Machine

/-! ## `LAST_ERR` -/

/-- The final part carries `LAST_ERR` along and takes no decision on it. -/
theorem finalPart_withErr (P : Primitive) (e : Err) (s : State) :
    finalPart P { s with lastErr := e } = (finalPart P s).map fun u => { u with lastErr := e } := by
  cases hp : s.cfg.pad
  case noPadding =>
    rw [finalPart_noPadding hp, finalPart_noPadding (s := { s with lastErr := e }) hp, apply_ite (Except.map _)]
    rfl
  case pkcs5 =>
    cases hd : s.cfg.dir
    case enc =>
      rw [finalPart_encPkcs5 hd hp, finalPart_encPkcs5 (s := { s with lastErr := e }) hd hp, apply_ite (Except.map _)]
      rfl
    case dec =>
      rw [finalPart_decPkcs5 hd hp, finalPart_decPkcs5 (s := { s with lastErr := e }) hd hp, apply_ite (Except.map _)]
      cases unpadPkcs5 P.B (s.out.drop (s.out.length - P.B)) <;> rfl

theorem dofinalCommand_withErr (P : Primitive) (data : Bytes) (e : Err) (s : State) :
    dofinalCommand P data { s with lastErr := e } = dofinalCommand P data s := by
  by_cases hf : s.fsm = .uninit
  · rw [dofinalCommand, dofinalCommand, if_pos hf, if_pos hf]
    rfl
  · have hfinal : finalPart P (updatePart P data (openOutput { s with lastErr := e })) =
        (finalPart P (updatePart P data (openOutput s))).map fun u => { u with lastErr := e } :=
      finalPart_withErr P e (updatePart P data (openOutput s))
    simp only [dofinalCommand, hf, if_false, hfinal]
    cases finalPart P (updatePart P data (openOutput s)) <;> rfl

/-! ## The three outcomes of ENCRYPT and DECRYPT -/

section Direct

variable {P : Primitive} (dec : Bool) {data : Bytes} {s : State}

theorem directCommand_uninit (hf : s.fsm = .uninit) : directCommand P dec data s = .next (raise .illegalState s) :=
  if_pos hf

theorem directCommand_unaligned (hf : s.fsm ≠ .uninit) (hd : data.length % granularity P.B s.cfg ≠ 0) :
    directCommand P dec data s = .next (raise .unalignedLength s) :=
  (if_neg hf).trans (if_pos hd)

theorem directCommand_aligned (hf : s.fsm ≠ .uninit) (hd : data.length % granularity P.B s.cfg = 0) :
    directCommand P dec data s = .next (complete (modeOp P dec data (openOutput s))) :=
  (if_neg hf).trans (if_neg (not_not_intro hd))

end Direct

/-! ## `DIR` and `PAD` -/

theorem unitStep_withDirPad (P : Primitive) (cfg : Cfg) (dir : Dir) (pad : Pad) :
    unitStep P { cfg with dir := dir, pad := pad } = unitStep P cfg := rfl

/-- The unit steps are selected by `MODE`, `W` and the command, not by `DIR` or `PAD` (40_dispatcher.md R104). -/
theorem modeRun_withDirPad (P : Primitive) (cfg : Cfg) (dir : Dir) (pad : Pad) (dec : Bool) (us : List Bytes)
    (r : Bytes) : modeRun P { cfg with dir := dir, pad := pad } dec us r = modeRun P cfg dec us r := by
  induction us generalizing r with
  | nil => rfl
  | cons x us ih => simp only [modeRun, unitStep_withDirPad, ih]

theorem granularity_withDirPad (B : Nat) (cfg : Cfg) (dir : Dir) (pad : Pad) :
    granularity B { cfg with dir := dir, pad := pad } = granularity B cfg := rfl

/-- Two runs of ENCRYPT or DECRYPT from states that differ in `BUF`, `DIR` and `PAD`. -/
theorem directCommand_bypass (P : Primitive) (dec : Bool) (d b : Bytes) (dir : Dir) (pad : Pad) (s : State) :
    ∃ t u, directCommand P dec d s = .next t ∧
      directCommand P dec d { s with buf := b, cfg := { s.cfg with dir := dir, pad := pad } } = .next u ∧
      lastOut u = lastOut t ∧ u.regR = t.regR ∧ u.lastErr = t.lastErr ∧
      t.buf = s.buf ∧ u.buf = b ∧ t.fsm = s.fsm ∧ u.fsm = s.fsm := by
  by_cases hf : s.fsm = .uninit
  · exact ⟨_, _, directCommand_uninit dec hf, directCommand_uninit dec hf, by simp⟩
  · by_cases hd : d.length % granularity P.B s.cfg = 0
    · exact ⟨_, _, directCommand_aligned dec hf hd, directCommand_aligned dec hf hd,
        by simp [granularity_withDirPad, modeRun_withDirPad]⟩
    · exact ⟨_, _, directCommand_unaligned dec hf hd, directCommand_unaligned dec hf hd, by simp⟩

end Sys2Proof.Machine

namespace Sys2Proof.Proofs

open Sys2Proof Sys2Proof.Machine

/-- Settles O42: every command branches on other fields and ends in `respond`, which overwrites `LAST_ERR`, so the two
sides are one term; only DOFINAL, whose final part answers a state or an error, needs an argument. -/
theorem lastErrorIsReadByNoCommand : Obligations.LastErrorIsReadByNoCommand := by
  intro i s e hc
  cases i <;> try cases hc
  case dofinal d => exact dofinalCommand_withErr Config.primitive d e s
  all_goals rfl

/-- Settles O49: both commands are `directCommand`, which reads of `CFG` only `MODE` and `W`. -/
theorem directCommandsBypassTheBuffer : Obligations.DirectCommandsBypassTheBuffer := by
  intro d b dir pad s i hi
  rcases List.mem_pair.mp hi with rfl | rfl
  · exact directCommand_bypass Config.primitive false d b dir pad s
  · exact directCommand_bypass Config.primitive true d b dir pad s

end Sys2Proof.Proofs

/-! What a command outputs: units run one after another (20_memory.md R61), how many bytes (R59), and one command after
another as one command over both operands (R65). -/

namespace Sys2Proof.Machine

/-! ## The primitive port -/

theorem primPort_e_toList {P : Primitive} (v : Block P.B) : primPort P .e v.toList = (P.E v).toList := by
  rw [primPort, toBlock_toList]

theorem primPort_d_toList {P : Primitive} (v : Block P.B) : primPort P .d v.toList = (P.D v).toList := by
  rw [primPort, toBlock_toList]

/-! ## `ModeOp` over nothing -/

@[simp] theorem modeOp_nil (P : Primitive) (dec : Bool) (s : State) : modeOp P dec [] s = s := by
  simp only [modeOp, unitsOf_nil, modeRun, applyUnit, List.append_nil]

/-! ## The successful final part of each configuration (47_accumulator.md R206 to R209) -/

section FinalOk

variable {P : Primitive} {s u : State}

theorem finalPart_noPadding_ok (hp : s.cfg.pad = .noPadding) (h : finalPart P s = .ok u) : s.buf = [] ∧ u = s := by
  rw [finalPart_noPadding hp] at h
  split at h
  · cases h; exact ⟨‹_›, rfl⟩
  · cases h

theorem finalPart_encPkcs5_ok (hd : s.cfg.dir = .enc) (hp : s.cfg.pad = .pkcs5) (h : finalPart P s = .ok u) :
    P.B % granularity P.B s.cfg = 0 ∧ u = { modeOp P false (padPkcs5 P.B s.buf) s with buf := [] } := by
  rw [finalPart_encPkcs5 hd hp] at h
  split at h
  · cases h; exact ⟨‹_›, rfl⟩
  · cases h

theorem finalPart_decPkcs5_ok (hd : s.cfg.dir = .dec) (hp : s.cfg.pad = .pkcs5) (h : finalPart P s = .ok u) :
    s.buf = [] ∧ P.B ≤ s.out.length ∧ ∃ body, unpadPkcs5 P.B (s.out.drop (s.out.length - P.B)) = some body ∧
      u = { s with out := s.out.take (s.out.length - (P.B - body.length)) } := by
  rw [finalPart_decPkcs5 hd hp] at h
  split at h
  · cases h
  · rename_i hwhole
    obtain ⟨hbuf, hout⟩ := not_or.mp hwhole
    split at h
    · cases h
    · cases h; exact ⟨not_not.mp hbuf, not_lt.mp hout, _, ‹_›, rfl⟩

end FinalOk

/-! ## Output lengths (20_memory.md R59) -/

theorem length_modeOp_out {P : Primitive} (dec : Bool) {data : Bytes} {s : State} (hc : CfgLegal P.B s.cfg)
    (hr : s.regR.length = P.B) (hd : data.length % granularity P.B s.cfg = 0) :
    (modeOp P dec data s).out.length = s.out.length + data.length := by
  rw [modeOp_out, List.length_append, (length_modeRun dec hc hd hr).1]

section Lengths

variable {P : Primitive} {s : State} (hc : CfgLegal P.B s.cfg) (hr : s.regR.length = P.B) (data : Bytes)
include hc hr

/-- The update part outputs the whole units of `BUF ++ data` (47_accumulator.md R204). -/
theorem length_updatePart_out :
    (updatePart P data s).out.length =
      s.out.length + granularity P.B s.cfg * ((s.buf.length + data.length) / granularity P.B s.cfg) := by
  rw [updatePart_eq, Nat.mul_comm, ← List.length_append (as := s.buf), ← (length_modeRun_any _ hc _ hr).1]
  exact List.length_append

/-- A byte of `BUF ++ data` is put out by the update part or kept. -/
theorem length_updatePart_out_buf :
    (updatePart P data s).out.length + (updatePart P data s).buf.length =
      s.out.length + (s.buf.length + data.length) := by
  have hbuf : (updatePart P data s).buf.length = (s.buf.length + data.length) % granularity P.B s.cfg := by
    rw [updatePart_eq, ← List.length_append, Nat.mod_eq_sub_div_mul]
    exact List.length_drop
  rw [length_updatePart_out hc hr, hbuf, Nat.add_assoc, Nat.div_add_mod]

end Lengths

/-- The padded rest of the buffer is one block, and so is its output (47_accumulator.md R206). -/
theorem length_modeOp_padPkcs5_out {P : Primitive} {s : State} (hc : CfgLegal P.B s.cfg) (hr : s.regR.length = P.B)
    (hg : P.B % granularity P.B s.cfg = 0) (hbuf : s.buf.length < granularity P.B s.cfg) :
    (modeOp P false (padPkcs5 P.B s.buf) s).out.length = s.out.length + P.B := by
  have hpad : (padPkcs5 P.B s.buf).length = P.B := length_padPkcs5 (hbuf.trans_le (granularity_le hc))
  rw [length_modeOp_out false hc hr (hpad.symm ▸ hg), hpad]

/-- The output of a DOFINAL that succeeds, from the state `s` in which it opens its output (R59, its three rows). -/
theorem length_finalPart_out {P : Primitive} {s u : State} (h : Inv P.B s) (hf : s.fsm ≠ .uninit) (data : Bytes)
    (hu : finalPart P (updatePart P data s) = .ok u) :
    (s.cfg.pad = .noPadding → u.out.length = s.buf.length + data.length) ∧
    (s.cfg.pad = .pkcs5 → s.cfg.dir = .enc →
      u.out.length =
        granularity P.B s.cfg * ((s.buf.length + data.length) / granularity P.B s.cfg) + P.B) ∧
    (s.cfg.pad = .pkcs5 → s.cfg.dir = .dec →
      ∃ n, 1 ≤ n ∧ n ≤ P.B ∧ u.out.length + n = s.buf.length + data.length) := by
  have hc : CfgLegal P.B s.cfg := h.cfgLegal hf
  have hout : s.out.length = 0 := congrArg List.length h.noOutput
  have hall := length_updatePart_out_buf hc h.lengthR data
  refine ⟨fun hp => ?_, fun hp hd => ?_, fun hp hd => ?_⟩
  · obtain ⟨hbuf, rfl⟩ := finalPart_noPadding_ok (s := updatePart P data s) hp hu
    simpa only [hbuf, hout, List.length_nil, Nat.add_zero, Nat.zero_add] using hall
  · obtain ⟨hg, rfl⟩ := finalPart_encPkcs5_ok (s := updatePart P data s) hd hp hu
    have hR := (inv_updatePart h.openOutput hf data).lengthR
    have hlast := length_modeOp_padPkcs5_out (s := updatePart P data s) hc hR hg (length_updatePart_buf_lt data hc)
    rwa [length_updatePart_out hc h.lengthR, hout, Nat.zero_add] at hlast
  · obtain ⟨hbuf, hB, body, hbody, rfl⟩ := finalPart_decPkcs5_ok (s := updatePart P data s) hd hp hu
    have hlt : body.length < P.B := (length_unpadPkcs5 (by rw [List.length_drop]; omega) hbody).1
    rw [hbuf, hout, List.length_nil] at hall
    refine ⟨P.B - body.length, by omega, by omega, ?_⟩
    simp only [List.length_take]
    omega

/-! ## A command that has already output something -/

/-- The state `s` in a command that put out `v` before, with other contents of the two fields a command only writes. -/
def withEarlier (v : Bytes) (e : Err) (rs : List Response) (s : State) : State :=
  { s with out := v ++ s.out, lastErr := e, responses := rs }

/-- What a command leaves and the next one opens is the state before the response, but for the output. -/
theorem withEarlier_openOutput_complete (s : State) :
    withEarlier s.out s.lastErr s.responses (openOutput (complete s)) = s := by
  simp only [withEarlier, openOutput_out, List.append_nil]
  rfl

section Earlier

variable (P : Primitive) (v : Bytes) (e : Err) (rs : List Response)

theorem modeOp_withEarlier (dec : Bool) (data : Bytes) (s : State) :
    modeOp P dec data (withEarlier v e rs s) = withEarlier v e rs (modeOp P dec data s) := by
  simp only [modeOp, applyUnit, withEarlier, List.append_assoc]

theorem updatePart_withEarlier (data : Bytes) (s : State) :
    updatePart P data (withEarlier v e rs s) = withEarlier v e rs (updatePart P data s) := by
  simp only [updatePart_eq, withEarlier, List.append_assoc]

/-- The final part reads the output of its command only to strip padding (20_memory.md R65). -/
theorem finalPart_withEarlier {s : State} (hs : s.cfg.dir = .enc ∨ s.cfg.pad = .noPadding) :
    finalPart P (withEarlier v e rs s) = (finalPart P s).map (withEarlier v e rs) := by
  cases hp : s.cfg.pad
  case noPadding =>
    rw [finalPart_noPadding hp, finalPart_noPadding (s := withEarlier v e rs s) hp, apply_ite (Except.map _)]
    rfl
  case pkcs5 =>
    have hd : s.cfg.dir = .enc := hs.resolve_right (by simp [hp])
    rw [finalPart_encPkcs5 hd hp, finalPart_encPkcs5 (s := withEarlier v e rs s) hd hp, modeOp_withEarlier,
      apply_ite (Except.map _)]
    rfl

end Earlier

/-- What UPDATE, then the update part of a next command, leave: one update part over both operands. -/
theorem updatePart_append_eq_withEarlier (P : Primitive) (x y : Bytes) (s : State) :
    let u := updatePart P x s
    updatePart P (x ++ y) s =
      withEarlier u.out u.lastErr u.responses (updatePart P y (openOutput (complete u))) := by
  simp only [← updatePart_withEarlier, withEarlier_openOutput_complete, updatePart_updatePart]

theorem finalPart_updatePart_append {P : Primitive} (x y : Bytes) {s : State}
    (hs : s.cfg.dir = .enc ∨ s.cfg.pad = .noPadding) :
    let u := updatePart P x s
    finalPart P (updatePart P (x ++ y) s) =
      (finalPart P (updatePart P y (openOutput (complete u)))).map (withEarlier u.out u.lastErr u.responses) := by
  intro u
  rw [updatePart_append_eq_withEarlier]
  exact finalPart_withEarlier P _ _ _ hs

/-! ## UPDATE and DOFINAL of a bound state -/

theorem complete_updatePart_bound (P : Primitive) (data : Bytes) (s : State) :
    (complete (updatePart P data s)).fsm ≠ .uninit := nofun

section BoundData

variable {P : Primitive} {s : State} (hf : s.fsm ≠ .uninit) (data : Bytes)
include hf

theorem updateCommand_bound : updateCommand P data s = .next (complete (updatePart P data (openOutput s))) :=
  if_neg hf

theorem dofinalCommand_error {e : Err} (h : finalPart P (updatePart P data (openOutput s)) = .error e) :
    dofinalCommand P data s = .next (raise e (updatePart P data (openOutput s))) := by
  simp only [dofinalCommand, hf, if_false, h]

theorem dofinalCommand_ok {u : State} (h : finalPart P (updatePart P data (openOutput s)) = .ok u) :
    dofinalCommand P data s = .next (complete { u with fsm := .finalized }) := by
  simp only [dofinalCommand, hf, if_false, h]

end BoundData

/-- UPDATE twice against UPDATE once: `R`, `BUF` and the output are those of one update part. -/
theorem updateCommand_append (P : Primitive) (x y : Bytes) {s : State} (hf : s.fsm ≠ .uninit) :
    ∃ t1 t2 u, updateCommand P x s = .next t1 ∧ updateCommand P y t1 = .next t2 ∧
      updateCommand P (x ++ y) s = .next u ∧ bare t2 = bare u ∧ lastOut t1 ++ lastOut t2 = lastOut u := by
  refine ⟨_, _, _, updateCommand_bound hf x, updateCommand_bound (complete_updatePart_bound P x _) y,
    updateCommand_bound hf (x ++ y), ?_⟩
  rw [updatePart_append_eq_withEarlier]
  simp only [lastOut_complete]
  exact ⟨rfl, rfl⟩

/-- UPDATE then DOFINAL against DOFINAL once: the final part sees the same `BUF`, `R` and `CFG`. -/
theorem updateCommand_dofinalCommand_append (P : Primitive) (x y : Bytes) {s : State} (hf : s.fsm ≠ .uninit)
    (hs : s.cfg.dir = .enc ∨ s.cfg.pad = .noPadding) :
    ∃ t1 t2 u, updateCommand P x s = .next t1 ∧ dofinalCommand P y t1 = .next t2 ∧
      dofinalCommand P (x ++ y) s = .next u ∧ bare t2 = bare u ∧
      (u.lastErr = .ok → lastOut t1 ++ lastOut t2 = lastOut u) := by
  have hf1 := complete_updatePart_bound P x (openOutput s)
  have hfinal := finalPart_updatePart_append (P := P) (s := openOutput s) x y hs
  cases hlast : finalPart P (updatePart P y (openOutput (complete (updatePart P x (openOutput s)))))
  case error e =>
    simp only [hlast] at hfinal
    refine ⟨_, _, _, updateCommand_bound hf x, dofinalCommand_error hf1 y hlast,
      dofinalCommand_error hf (x ++ y) hfinal, ?_, fun hok => ?_⟩
    · rw [updatePart_append_eq_withEarlier]
      rfl
    · rcases finalPart_error hlast with rfl | rfl | rfl <;> cases hok
  case ok m =>
    simp only [hlast] at hfinal
    refine ⟨_, _, _, updateCommand_bound hf x, dofinalCommand_ok hf1 y hlast, dofinalCommand_ok hf (x ++ y) hfinal,
      rfl, fun _ => ?_⟩
    simp only [lastOut_complete]
    rfl

end Sys2Proof.Machine

namespace Sys2Proof.Proofs

open Sys2Proof Sys2Proof.Machine

/-- Settles O60: what is handed over has `B` bytes, so the port neither cuts nor fills it. -/
theorem portCarriesBlocks : Obligations.PortCarriesBlocks :=
  fun v => ⟨primPort_e_toList (P := Config.primitive) v, primPort_d_toList (P := Config.primitive) v⟩

/-- Settles O30: `modeOp_append` with a first part of one unit. -/
theorem unitsRunInInputOrder : Obligations.UnitsRunInInputOrder :=
  fun _ dec _ rest s hx _ => ⟨modeOp_append dec rest (hx ▸ Nat.mod_self _), modeOp_nil _ dec s⟩

/-- Settles O50: an update part over `x` and one over `y` are one over `x ++ y`. -/
theorem updateChunking : Obligations.UpdateChunking :=
  fun x y _ hf => updateCommand_append Config.primitive x y hf

/-- Settles O51: no final part but the one that strips padding reads the output of its own command. -/
theorem dofinalChunking : Obligations.DofinalChunking :=
  fun x y _ hf hs => updateCommand_dofinalCommand_append Config.primitive x y hf hs

/-- Settles O45: of the outcomes of a command those with `LAST_ERR` not 0 are shut out, and each success has its row. -/
theorem outputLengthLaws : Obligations.OutputLengthLaws := by
  intro i s t h he hok
  cases hi : i.isCommand
  case false => cases i <;> trivial
  case true =>
    have ho : Inv Config.primitive.B (openOutput s) := h.openOutput
    rcases exec_next hi he with ⟨e, rfl, hne, -⟩ | ⟨dir, mode, pad, w, iv, rfl, -, rfl⟩ | ⟨hf, d, rfl, rfl⟩ |
      ⟨-, d, e, rfl, hu, rfl⟩ | ⟨hf, d, u, rfl, hu, rfl⟩ | ⟨-, rfl, rfl⟩ | ⟨-, rfl, rfl⟩ | ⟨-, rfl, rfl⟩ |
      ⟨hf, d, dec, rfl, hd, rfl⟩
    · exact absurd hok hne
    · exact lastOut_complete _
    · have hlen := length_updatePart_out (ho.cfgLegal hf) ho.lengthR d
      simpa using hlen
    · rcases finalPart_error hu with rfl | rfl | rfl <;> cases hok
    · simp only [lastOut_complete]
      exact length_finalPart_out ho hf d hu
    · exact lastOut_complete _
    · exact lastOut_complete _
    · exact lastOut_complete _
    · have hlen := length_modeOp_out dec (ho.cfgLegal hf) ho.lengthR hd
      cases dec <;> simpa using hlen

end Sys2Proof.Proofs

/-! Command words read field by field (30_encoding.md R70 to R77): a word is its fields put back, the masks of R78 select
fields, and of a framed request the opcode alone says the format and the command. -/

namespace Sys2Proof

/-! ## Words and masks as placed fields -/

/-- A field put back where it was read is what a mask of its bits leaves. -/
theorem placeField_extractLsb' (w : Word) (lo n : Nat) :
    placeField lo (w.extractLsb' lo n) = w &&& placeField lo (BitVec.allOnes n) := by
  refine BitVec.eq_of_getLsbD_eq fun i hi => ?_
  rw [getLsbD_placeField_extractLsb', BitVec.getLsbD_and, getLsbD_placeField, BitVec.getLsbD_allOnes, Bool.and_comm]
  by_cases hlo : lo ≤ i
  · simp [hi, hlo, Nat.sub_lt_iff_lt_add hlo, Nat.add_comm]
  · simp [hlo]

theorem word_eq_fieldsN (w : Word) : w = placeField 0 (opField w) ||| placeField 4 (zeroFieldN w) := by
  simp only [opField, zeroFieldN, placeField_extractLsb', ← BitVec.and_or_distrib_left]
  exact BitVec.and_allOnes.symm

theorem word_eq_fieldsD (w : Word) :
    w = placeField 0 (opField w) ||| placeField 4 (zeroFieldD w) ||| placeField 8 (lenField w) := by
  simp only [opField, zeroFieldD, lenField, placeField_extractLsb', ← BitVec.and_or_distrib_left]
  exact BitVec.and_allOnes.symm

theorem word_eq_fieldsI (w : Word) :
    w = placeField 0 (opField w) ||| placeField 4 (dirField w) ||| placeField 5 (modeField w) |||
      placeField 7 (padField w) ||| placeField 8 (widthField w) ||| placeField 16 (ivLenField w) |||
      placeField 24 (zeroFieldI w) := by
  simp only [opField, dirField, modeField, padField, widthField, ivLenField, zeroFieldI, placeField_extractLsb',
    ← BitVec.and_or_distrib_left]
  exact BitVec.and_allOnes.symm

/-- A value at bit 0 beside a field above it: the word is the value alone when the field is zero. -/
theorem placeField_or_eq_iff {n m lo : Nat} (a c : BitVec n) (b : BitVec m) (hn : n ≤ lo) (hm : lo + m ≤ 32) :
    placeField 0 a ||| placeField lo b = placeField 0 c ↔ a = c ∧ b = 0#m := by
  constructor
  · intro h
    have hlow := congrArg (BitVec.extractLsb' 0 n) h
    have hhigh := congrArg (BitVec.extractLsb' lo m) h
    rw [BitVec.extractLsb'_or, extractLsb'_placeField a (by omega), extractLsb'_placeField c (by omega),
      extractLsb'_placeField_disjoint b (by omega), BitVec.or_zero] at hlow
    rw [BitVec.extractLsb'_or, extractLsb'_placeField b hm, extractLsb'_placeField_disjoint a (by omega),
      extractLsb'_placeField_disjoint c (by omega), BitVec.zero_or] at hhigh
    exact ⟨hlow, hhigh⟩
  · rintro ⟨rfl, rfl⟩
    simp [placeField]

/-- Match and mask of format N (30_encoding.md R78). -/
theorem maskN_eq_iff (w : Word) (op : BitVec 4) :
    w &&& 0xFFFFFFFF#32 = placeField 0 op ↔ opField w = op ∧ zeroFieldN w = 0#28 := by
  have hfields : w &&& 0xFFFFFFFF#32 = placeField 0 (opField w) ||| placeField 4 (zeroFieldN w) :=
    BitVec.and_allOnes.trans (word_eq_fieldsN w)
  rw [hfields, placeField_or_eq_iff _ _ _ (by decide) (by decide)]

/-- Match and mask of format D (30_encoding.md R78). -/
theorem maskD_eq_iff (w : Word) (op : BitVec 4) :
    w &&& 0x000000FF#32 = placeField 0 op ↔ opField w = op ∧ zeroFieldD w = 0#4 := by
  have hfields : w &&& 0x000000FF#32 = placeField 0 (opField w) ||| placeField 4 (zeroFieldD w) := by
    simp only [opField, zeroFieldD, placeField_extractLsb', ← BitVec.and_or_distrib_left]
    rfl
  rw [hfields, placeField_or_eq_iff _ _ _ (by decide) (by decide)]

/-- Match and mask of format I (30_encoding.md R78). -/
theorem maskI_eq_iff (w : Word) (op : BitVec 4) :
    w &&& 0xFF00000F#32 = placeField 0 op ↔ opField w = op ∧ zeroFieldI w = 0#8 := by
  have hfields : w &&& 0xFF00000F#32 = placeField 0 (opField w) ||| placeField 24 (zeroFieldI w) := by
    simp only [opField, zeroFieldI, placeField_extractLsb', ← BitVec.and_or_distrib_left]
    rfl
  rw [hfields, placeField_or_eq_iff _ _ _ (by decide) (by decide)]

/-! ## The format of an opcode (R71) -/

theorem formatOfOp_eq_none_iff (op : BitVec 4) : formatOfOp op = none ↔ op = 0#4 ∨ 9 ≤ op.toNat := by
  revert op; decide

theorem formatOfOp_eq_n_iff (op : BitVec 4) : formatOfOp op = some .n ↔ op = 4#4 ∨ op = 5#4 ∨ op = 6#4 := by
  revert op; decide

theorem formatOfOp_eq_d_iff (op : BitVec 4) :
    formatOfOp op = some .d ↔ op = 2#4 ∨ op = 3#4 ∨ op = 7#4 ∨ op = 8#4 := by
  revert op; decide

theorem formatOfOp_eq_i_iff (op : BitVec 4) : formatOfOp op = some .i ↔ op = 1#4 := by
  revert op; decide

/-! ## Legality per format (R76, R77) -/

section Legality

variable {B : Nat} {w : Word}

theorem illegalWord_of_reserved (h : formatOfOp (opField w) = none) : illegalWord B w = some .reservedOpcode := by
  simp only [illegalWord, h]

theorem legal_formatN_iff (h : formatOfOp (opField w) = some .n) : illegalWord B w = none ↔ zeroFieldN w = 0#28 := by
  simp [illegalWord, h]

theorem legal_formatD_iff (h : formatOfOp (opField w) = some .d) : illegalWord B w = none ↔ zeroFieldD w = 0#4 := by
  simp [illegalWord, h]

theorem widthDecodes_iff (B : Nat) (w : Word) :
    widthDecodes B (modeOfBits (modeField w)) (widthField w) = true ↔ WidthLegalBits B w := by
  have hmode : ∀ b : BitVec 2, modeOfBits b = .cfb ↔ b = 2#2 := by decide
  change _ ↔ (modeField w = 2#2 ∧ 1 ≤ (widthField w).toNat ∧ (widthField w).toNat ≤ B) ∨
    (modeField w ≠ 2#2 ∧ widthField w = 0#8)
  by_cases hm : modeField w = 2#2 <;> simp [widthDecodes, hmode, hm]

theorem legal_formatI_iff (h : formatOfOp (opField w) = some .i) :
    illegalWord B w = none ↔ zeroFieldI w = 0#8 ∧ WidthLegalBits B w := by
  rw [← widthDecodes_iff]
  by_cases hz : zeroFieldI w = 0#8 <;> simp [illegalWord, h, hz]

end Legality

/-! ## The command of a word (R71) -/

/-- The opcode names the command, and nothing else of the word does. -/
theorem commandOf_eq_some_iff {w : Word} {operand : Bytes} {i : Instr} :
    commandOf w operand = some i ↔
      (opField w = 1#4 ∧
        i = .init (dirOfBits (dirField w)) (modeOfBits (modeField w)) (padOfBits (padField w)) (widthField w) operand) ∨
      (opField w = 2#4 ∧ i = .update operand) ∨ (opField w = 3#4 ∧ i = .dofinal operand) ∨
      (opField w = 4#4 ∧ i = .reset) ∨ (opField w = 5#4 ∧ i = .save) ∨ (opField w = 6#4 ∧ i = .restore) ∨
      (opField w = 7#4 ∧ i = .encrypt operand) ∨ (opField w = 8#4 ∧ i = .decrypt operand) := by
  constructor
  · intro h
    simp only [commandOf] at h
    repeat' split at h
    all_goals cases h
    all_goals simp [*]
  · rintro (⟨hop, rfl⟩ | ⟨hop, rfl⟩ | ⟨hop, rfl⟩ | ⟨hop, rfl⟩ | ⟨hop, rfl⟩ | ⟨hop, rfl⟩ | ⟨hop, rfl⟩ | ⟨hop, rfl⟩) <;>
      simp [commandOf, hop]

/-- An opcode with a format is the opcode of a command. -/
theorem exists_commandOf {w : Word} (operand : Bytes) (h : formatOfOp (opField w) ≠ none) :
    ∃ i, commandOf w operand = some i := by
  simp only [commandOf_eq_some_iff]
  cases hf : formatOfOp (opField w)
  case none => exact absurd hf h
  case some f =>
    cases f
    case i => simp [(formatOfOp_eq_i_iff _).mp hf]
    case d => rcases (formatOfOp_eq_d_iff _).mp hf with hop | hop | hop | hop <;> simp [hop]
    case n => rcases (formatOfOp_eq_n_iff _).mp hf with hop | hop | hop <;> simp [hop]

/-! ## Framed requests (R75) -/

theorem operandLen_lt (B : Nat) (w : Word) : operandLen B w < 2 ^ 24 := by
  have hiv := (ivLenField w).isLt
  have hlen := (lenField w).isLt
  unfold operandLen
  repeat' split
  all_goals omega

theorem decode_command_iff {B : Nat} {q : Request} {i : Instr} (hq : Framed B q) :
    decode B q = .command i ↔ illegalWord B q.word = none ∧ commandOf q.word q.operand = some i := by
  refine ⟨fun h => (decode_command h).2, fun ⟨hl, hc⟩ => ?_⟩
  simp [decode, hq, hl, hc]

section Framed

variable {B : Nat} {q : Request} (hq : Framed B q)
include hq

theorem Framed.operand_nil {why : IllegalWord} (h : illegalWord B q.word = some why) : q.operand = [] := by
  rw [Framed, operandLen, h] at hq
  exact List.eq_nil_of_length_eq_zero hq

theorem Framed.length_le_lenMax : q.operand.length ≤ Config.lenMax :=
  Nat.le_sub_one_of_lt (hq.trans_lt (operandLen_lt B q.word))

variable (hl : illegalWord B q.word = none) {op : BitVec 4} (hop : opField q.word = op)
include hl hop

theorem Framed.length_formatI (hf : formatOfOp op = some .i) : q.operand.length = (ivLenField q.word).toNat := by
  rw [hq, operandLen, hl, hop, hf]

theorem Framed.length_formatD (hf : formatOfOp op = some .d) : q.operand.length = (lenField q.word).toNat := by
  rw [hq, operandLen, hl, hop, hf]

theorem Framed.length_formatN (hf : formatOfOp op = some .n) : q.operand.length = 0 := by
  rw [hq, operandLen, hl, hop, hf]

/-- A legal framed request of format N is its encoding (R72). -/
theorem encodeN_opField (hf : formatOfOp op = some .n) : encodeN op = q := by
  have hz : zeroFieldN q.word = 0#28 := (legal_formatN_iff (hop ▸ hf)).mp hl
  have hw : q.word = placeField 0 op := by
    conv_lhs => rw [word_eq_fieldsN q.word, hop, hz]
    simp [placeField]
  rw [encodeN, ← hw, ← List.eq_nil_of_length_eq_zero (hq.length_formatN hl hop hf)]

/-- A legal framed request of format D is its encoding (R74). -/
theorem encodeD_opField (hf : formatOfOp op = some .d) : encodeD op q.operand = q := by
  have hz : zeroFieldD q.word = 0#4 := (legal_formatD_iff (hop ▸ hf)).mp hl
  have hw : q.word = placeField 0 op ||| placeField 8 (lenField q.word) := by
    conv_lhs => rw [word_eq_fieldsD q.word, hop, hz]
    simp [placeField]
  rw [encodeD, hq.length_formatD hl hop hf, BitVec.ofNat_toNat, BitVec.setWidth_eq, ← hw]

/-- A legal framed request of format I is the encoding of its fields (R73). -/
theorem encodeI_fields (hf : formatOfOp op = some .i) :
    encodeI (dirOfBits (dirField q.word)) (modeOfBits (modeField q.word)) (padOfBits (padField q.word))
      (widthField q.word) q.operand = q := by
  obtain ⟨hz, -⟩ := (legal_formatI_iff (hop ▸ hf)).mp hl
  have hw : q.word = placeField 0 1#4 ||| placeField 4 (dirField q.word) ||| placeField 5 (modeField q.word) |||
      placeField 7 (padField q.word) ||| placeField 8 (widthField q.word) ||| placeField 16 (ivLenField q.word) := by
    conv_lhs => rw [word_eq_fieldsI q.word, hop, (formatOfOp_eq_i_iff op).mp hf, hz]
    simp [placeField]
  rw [encodeI, hq.length_formatI hl hop hf, BitVec.ofNat_toNat, BitVec.setWidth_eq, dirBits_dirOfBits,
    modeBits_modeOfBits, padBits_padOfBits, ← hw]

end Framed

/-! ## Decoding what was encoded, encoding what was decoded -/

@[simp] theorem encodeD_operand (op : BitVec 4) (data : Bytes) : (encodeD op data).operand = data := rfl

@[simp] theorem encodeI_operand (dir : Dir) (mode : Mode) (pad : Pad) (w : BitVec 8) (iv : Bytes) :
    (encodeI dir mode pad w iv).operand = iv := rfl

/-- An encoding names the command it was made from. -/
theorem commandOf_encode {i : Instr} {q : Request} (h : encode i = some q) : commandOf q.word q.operand = some i := by
  rw [commandOf_eq_some_iff]
  cases i <;> cases h
  case init => simp [opField_encodeI, dirField_encodeI, modeField_encodeI, padField_encodeI, widthField_encodeI]
  case reset | save | restore => simp [opField_encodeN]
  case update | dofinal | encrypt | decrypt => simp [opField_encodeD]

theorem exists_encode {i : Instr} (h : i.isCommand = true) : ∃ q, encode i = some q := by
  cases i <;> try cases h
  all_goals exact ⟨_, rfl⟩

theorem legal_framed_encode (i : Instr) : Laws.EncodeFramed.Statement i :=
  match i with
  | .init dir mode pad w iv => Laws.EncodeFramed.init dir mode pad w iv
  | .update data => Laws.EncodeFramed.update data
  | .dofinal data => Laws.EncodeFramed.dofinal data
  | .reset => Laws.EncodeFramed.reset
  | .save => Laws.EncodeFramed.save
  | .restore => Laws.EncodeFramed.restore
  | .encrypt data => Laws.EncodeFramed.encrypt data
  | .decrypt data => Laws.EncodeFramed.decrypt data
  | .ecbEnc x => Laws.EncodeFramed.ecbEnc x
  | .ecbDec x => Laws.EncodeFramed.ecbDec x
  | .cbcEnc x => Laws.EncodeFramed.cbcEnc x
  | .cbcDec x => Laws.EncodeFramed.cbcDec x
  | .cfbEnc x => Laws.EncodeFramed.cfbEnc x
  | .cfbDec x => Laws.EncodeFramed.cfbDec x
  | .ofbStep x => Laws.EncodeFramed.ofbStep x

/-- What decodes is its own encoding: the must-be-zero fields are zero and the length field is the operand's length. -/
theorem encode_of_decode {B : Nat} {q : Request} {i : Instr} (h : decode B q = .command i) : encode i = some q := by
  obtain ⟨hq, hl, hc⟩ := decode_command h
  rcases commandOf_eq_some_iff.mp hc with ⟨hop, rfl⟩ | ⟨hop, rfl⟩ | ⟨hop, rfl⟩ | ⟨hop, rfl⟩ | ⟨hop, rfl⟩ |
    ⟨hop, rfl⟩ | ⟨hop, rfl⟩ | ⟨hop, rfl⟩
  · exact congrArg some (encodeI_fields hq hl hop rfl)
  · exact congrArg some (encodeD_opField hq hl hop rfl)
  · exact congrArg some (encodeD_opField hq hl hop rfl)
  · exact congrArg some (encodeN_opField hq hl hop rfl)
  · exact congrArg some (encodeN_opField hq hl hop rfl)
  · exact congrArg some (encodeN_opField hq hl hop rfl)
  · exact congrArg some (encodeD_opField hq hl hop rfl)
  · exact congrArg some (encodeD_opField hq hl hop rfl)

/-- What decodes is well formed: the fields bound the lengths, and the decoder checked the width (R73, R74, R77). -/
theorem wellFormed_of_decode {B : Nat} {q : Request} {i : Instr} (h : decode B q = .command i) :
    wellFormed B i = true := by
  obtain ⟨hq, hl, hc⟩ := decode_command h
  have hlen := decide_eq_true hq.length_le_lenMax
  rcases commandOf_eq_some_iff.mp hc with ⟨hop, rfl⟩ | ⟨-, rfl⟩ | ⟨-, rfl⟩ | ⟨-, rfl⟩ | ⟨-, rfl⟩ | ⟨-, rfl⟩ |
    ⟨-, rfl⟩ | ⟨-, rfl⟩
  case inl =>
    have hiv : q.operand.length ≤ 255 := by
      rw [hq.length_formatI hl hop rfl]
      exact Nat.le_of_lt_succ (ivLenField q.word).isLt
    exact Bool.and_eq_true_iff.mpr ⟨decode_init_width h, decide_eq_true hiv⟩
  case inr.inr.inr.inl | inr.inr.inr.inr.inl | inr.inr.inr.inr.inr.inl => rfl
  all_goals exact hlen

end Sys2Proof

namespace Sys2Proof.Proofs

open Sys2Proof Sys2Proof.Machine

/-- Settles O1: the encoder's word is legal, states the operand's length, and its opcode and fields name the command. -/
theorem decodeEncodeAgree : Obligations.DecodeEncodeAgree := by
  intro B i hw hi
  obtain ⟨q, henc⟩ := exists_encode hi
  obtain ⟨hl, hq⟩ := legal_framed_encode i B q hw henc
  exact ⟨q, henc, (decode_command_iff hq).mpr ⟨hl, commandOf_encode henc⟩⟩

/-- Settles O2: a decoded word is its fields put back, which is what the encoder writes. -/
theorem encodeDecodeAgree : Obligations.EncodeDecodeAgree :=
  fun _ _ _ _ h => ⟨wellFormed_of_decode h, decode_isCommand h, encode_of_decode h⟩

end Sys2Proof.Proofs

/-! Which words are which command (30_encoding.md R78), which are none (R76), and what a step does with those. -/

namespace Sys2Proof

/-! ## Match and mask (R78) -/

theorem commandOf_eq_init_iff {word : Word} {operand : Bytes} {dir : Dir} {mode : Mode} {pad : Pad} {w : BitVec 8}
    {iv : Bytes} :
    commandOf word operand = some (.init dir mode pad w iv) ↔
      opField word = 1#4 ∧ dir = dirOfBits (dirField word) ∧ mode = modeOfBits (modeField word) ∧
        pad = padOfBits (padField word) ∧ w = widthField word ∧ iv = operand := by
  simp [commandOf_eq_some_iff]

section Rows

variable {B : Nat} {q : Request} (hq : Framed B q) {op : BitVec 4}
include hq

/-- A row of format D: the words with the opcode of the command and zero in bits 7:4. -/
theorem decode_rowD {c : Bytes → Instr} (hf : formatOfOp op = some .d)
    (hc : ∀ d, commandOf q.word q.operand = some (c d) ↔ opField q.word = op ∧ d = q.operand) :
    (∃ d, decode B q = .command (c d)) ↔ q.word &&& 0x000000FF#32 = placeField 0 op := by
  simp only [maskD_eq_iff, decode_command_iff hq, hc]
  constructor
  · rintro ⟨d, hl, hop, -⟩
    exact ⟨hop, (legal_formatD_iff (hop ▸ hf)).mp hl⟩
  · rintro ⟨hop, hz⟩
    exact ⟨q.operand, (legal_formatD_iff (hop ▸ hf)).mpr hz, hop, rfl⟩

/-- A row of format N: the one word that is the opcode of the command. -/
theorem decode_rowN {c : Instr} (hf : formatOfOp op = some .n)
    (hc : commandOf q.word q.operand = some c ↔ opField q.word = op) :
    decode B q = .command c ↔ q.word &&& 0xFFFFFFFF#32 = placeField 0 op := by
  rw [maskN_eq_iff, decode_command_iff hq, hc, and_comm]
  exact and_congr_right fun hop => legal_formatN_iff (hop ▸ hf)

/-- The row of INIT: opcode 1, zero in bits 31:24, and a legal width (R77). -/
theorem decode_rowI :
    (∃ dir mode pad w iv, decode B q = .command (.init dir mode pad w iv)) ↔
      q.word &&& 0xFF00000F#32 = placeField 0 1#4 ∧ WidthLegalBits B q.word := by
  simp only [maskI_eq_iff, decode_command_iff hq, commandOf_eq_init_iff]
  constructor
  · rintro ⟨dir, mode, pad, w, iv, hl, hop, -⟩
    obtain ⟨hz, hw⟩ := (legal_formatI_iff ((formatOfOp_eq_i_iff _).mpr hop)).mp hl
    exact ⟨⟨hop, hz⟩, hw⟩
  · rintro ⟨⟨hop, hz⟩, hw⟩
    exact ⟨_, _, _, _, _, (legal_formatI_iff ((formatOfOp_eq_i_iff _).mpr hop)).mpr ⟨hz, hw⟩, hop, rfl, rfl, rfl, rfl, rfl⟩

end Rows

/-! ## Illegal words (R76) -/

theorem wordIllegal_iff (B : Nat) (w : Word) : WordIllegal B w ↔ illegalWord B w ≠ none := by
  have hbits : WordIllegal B w ↔
      formatOfOp (opField w) = none ∨ (formatOfOp (opField w) = some .n ∧ zeroFieldN w ≠ 0#28) ∨
      (formatOfOp (opField w) = some .d ∧ zeroFieldD w ≠ 0#4) ∨
      (formatOfOp (opField w) = some .i ∧ (zeroFieldI w ≠ 0#8 ∨ ¬ WidthLegalBits B w)) := by
    simp only [formatOfOp_eq_none_iff, formatOfOp_eq_n_iff, formatOfOp_eq_d_iff, formatOfOp_eq_i_iff]
    rfl
  rw [hbits]
  cases hf : formatOfOp (opField w)
  case none => simp [illegalWord_of_reserved hf]
  case some f =>
    cases f
    case n => simp [legal_formatN_iff hf]
    case d => simp [legal_formatD_iff hf]
    case i => simp [legal_formatI_iff hf, imp_iff_not_or]

/-- A framed request decodes exactly when its word is legal. -/
theorem exists_decode_iff {B : Nat} {q : Request} (hq : Framed B q) :
    (∃ i, decode B q = .command i) ↔ illegalWord B q.word = none := by
  simp only [decode_command_iff hq, exists_and_left, and_iff_left_iff_imp]
  exact fun hl => exists_commandOf q.operand fun hf => nomatch (illegalWord_of_reserved hf).symm.trans hl

end Sys2Proof

namespace Sys2Proof.Machine

/-! ## The response of a command step (R80, R81) -/

section CommandStep

variable {s t : State} {q : Request} {rest : List HostMove} (hin : s.input = .command q :: rest)
  (hstep : step s = .next t)
include hin hstep

theorem step_command_framed : Framed Config.B q := by
  by_contra hq
  have hmis : decode Config.B q = .misframed := if_pos hq
  exact nomatch (step_misframed hin hmis).symm.trans hstep

/-- A command step runs the decoded command or refuses the word. -/
theorem step_command_next :
    (∃ i, decode Config.B q = .command i ∧ exec i { s with input := rest } = .next t) ∨
      t = raise .illegalCommand { s with input := rest } := by
  rcases step_next hstep with ⟨hnil, -⟩ | ⟨rest', hreset, -⟩ | ⟨q', rest', i, hin', hq, he⟩ |
    ⟨q', rest', why, hin', -, rfl⟩
  · simp [hin] at hnil
  · simp [hin] at hreset
  · cases hin.symm.trans hin'
    exact .inl ⟨i, hq, he⟩
  · cases hin.symm.trans hin'
    exact .inr rfl

/-- Every command step ends by responding, with no output when it fails. -/
theorem step_command_respond : ∃ m e v, t = respond e v m ∧ m.responses = s.responses ∧ (e ≠ .ok → v = []) := by
  rcases step_command_next hin hstep with ⟨i, hq, he⟩ | rfl
  · obtain ⟨m, e, v, rfl, hm, -, hv⟩ := exec_respond (decode_isCommand hq) he
    exact ⟨m, e, v, rfl, hm, hv⟩
  · exact ⟨_, _, _, raise_eq _ _, rfl, fun _ => rfl⟩

end CommandStep

/-! ## The length of an output (R80) -/

theorem Inv.length_buf_lt {B : Nat} {s : State} (h : Inv B s) (hB : 1 ≤ B) : s.buf.length < B := by
  by_cases hf : s.fsm = .uninit
  · rw [h.uninitEmpty hf]
    exact hB
  · exact (h.bufShort hf).trans_le (granularity_le (h.cfgLegal hf))

/-- A successful command puts out at most its operand, what `BUF` held and one padded block (20_memory.md R59). -/
theorem length_lastOut_exec_le {i : Instr} {s t : State} {q : Request} (henc : encode i = some q)
    (h : Inv Config.B s) (he : exec i s = .next t) (hok : t.lastErr = .ok) :
    (lastOut t).length ≤ q.operand.length + 2 * Config.B - 1 := by
  have hbuf : s.buf.length < Config.B := h.length_buf_lt Config.B_bounds.1
  have hlaw := Proofs.outputLengthLaws i s t h he hok
  have hcut (d : Bytes) := Nat.mul_div_le (s.buf.length + d.length) (granularity Config.B s.cfg)
  cases i <;> cases henc
  case update d =>
    have hwhole := hcut d
    simp only [encodeD_operand] at hlaw ⊢
    omega
  case dofinal d =>
    obtain ⟨hplain, hpadded, hstripped⟩ := hlaw
    have hwhole := hcut d
    rw [encodeD_operand]
    cases hp : s.cfg.pad
    case noPadding =>
      have hlen := hplain hp
      omega
    case pkcs5 =>
      cases hd : s.cfg.dir
      case enc =>
        have hlen := hpadded hp hd
        omega
      case dec =>
        obtain ⟨n, -, -, hlen⟩ := hstripped hp hd
        omega
  case encrypt | decrypt =>
    simp only [encodeD_operand] at hlaw ⊢
    omega
  case init | reset | save | restore =>
    have hnone : lastOut t = [] := hlaw
    simp [hnone]

/-- The bound of R80 for every command step: a failing one returns nothing. -/
theorem length_lastOut_step_le {s t : State} {q : Request} {rest : List HostMove} (h : Inv Config.B s)
    (hin : s.input = .command q :: rest) (hstep : step s = .next t) :
    (lastOut t).length ≤ q.operand.length + 2 * Config.B - 1 := by
  rcases step_command_next hin hstep with ⟨i, hq, he⟩ | rfl
  · by_cases hok : t.lastErr = .ok
    · exact length_lastOut_exec_le (encode_of_decode hq) (h.withChannels s.lastErr rest s.responses) he hok
    · obtain ⟨m, e, v, rfl, -, -, hv⟩ := exec_respond (decode_isCommand hq) he
      simp [hv hok]
  · simp

end Sys2Proof.Machine

namespace Sys2Proof.Proofs

open Sys2Proof Sys2Proof.Machine

/-- Settles O3: the opcode names the command, and the mask of its format selects the opcode and the zero field. -/
theorem decodeFollowsMatchAndMask : Obligations.DecodeFollowsMatchAndMask := by
  intro B q hq
  refine ⟨decode_rowI hq, decode_rowD hq (op := 2#4) rfl ?_, decode_rowD hq (op := 3#4) rfl ?_,
    decode_rowN hq (op := 4#4) rfl ?_, decode_rowN hq (op := 5#4) rfl ?_, decode_rowN hq (op := 6#4) rfl ?_,
    decode_rowD hq (op := 7#4) rfl ?_, decode_rowD hq (op := 8#4) rfl ?_⟩ <;> simp [commandOf_eq_some_iff]

/-- Settles O4: a word is illegal when a condition of R76 holds; it states no operand, and its step raises. -/
theorem illegalWordsFail : Obligations.IllegalWordsFail := by
  intro s q rest hin hq
  rw [exists_decode_iff hq, wordIllegal_iff, not_not]
  refine ⟨Iff.rfl, fun hne => ?_⟩
  obtain ⟨why, hl⟩ := Option.ne_none_iff_exists'.mp hne
  have hop : q.operand = [] := hq.operand_nil hl
  exact ⟨hop, step_illegal hin (decode_illegal hl hop)⟩

/-- Settles O5, by evaluating the decoder. -/
theorem decodingSamples : Obligations.DecodingSamples := by
  unfold Obligations.DecodingSamples
  decide

/-- Settles O41: a command step ends in `respond`, which closes the output string. -/
theorem failingCommandReturnsNoOutput : Obligations.FailingCommandReturnsNoOutput := by
  intro s t q rest hin hstep
  obtain ⟨m, e, v, rfl, hm, hv⟩ := step_command_respond hin hstep
  refine ⟨rfl, fun hne => ?_⟩
  rw [respond_responses, hm, hv hne]
  rfl

/-- Settles O46: a failed command puts out nothing, a successful one is bounded by R59, and 24 bits of operand length
leave `OUT_LEN` far from wrapping. -/
theorem outLenIsBounded : Obligations.OutLenIsBounded := by
  intro s t q rest h hin hstep
  have hbound := length_lastOut_step_le h hin hstep
  have hoperand : q.operand.length ≤ Config.lenMax := (step_command_framed hin hstep).length_le_lenMax
  have hB : Config.B ≤ 255 := Config.B_bounds.2
  obtain ⟨m, e, v, rfl, hm, -⟩ := step_command_respond hin hstep
  rw [lastOut_respond] at hbound
  have hwrap : (BitVec.ofNat 32 v.length).toNat = v.length := by
    rw [BitVec.toNat_ofNat]
    simp only [Config.lenMax] at hoperand
    omega
  rw [respond_responses, hm]
  exact ⟨_, rfl, hwrap, hwrap.trans_le hbound⟩

end Sys2Proof.Proofs

/-! The mode dispatcher (40_dispatcher.md): the granularity (R102), the unit step that `CFG.MODE` and the direction select
(R100, R104), and ENCRYPT and DECRYPT (R105 to R107, R111). -/

namespace Sys2Proof.Machine

/-! ## The granularity -/

theorem granularity_cfb {B : Nat} {cfg : Cfg} (hm : cfg.mode = .cfb) : granularity B cfg = cfg.w.toNat := by
  rw [granularity, hm]

theorem granularity_block {B : Nat} {cfg : Cfg} (hm : cfg.mode ≠ .cfb) : granularity B cfg = B := by
  rw [granularity]
  cases h : cfg.mode
  case cfb => exact absurd h hm
  all_goals rfl

/-! ## Unit steps run alone -/

/-- The seven unit arms of `exec` in one equation: each runs the step the dispatcher selects under its own mode. -/
theorem exec_ofUnit (mode : Mode) (dec : Bool) (x : Bytes) (s : State) :
    exec (Instr.ofUnit mode dec x) s =
      runUnit Config.B mode x (unitStep Config.primitive { s.cfg with mode := mode } dec s.regR x) s := by
  cases mode <;> cases dec <;> rfl

theorem unitSelected_iff {B : Nat} {mode : Mode} {x : Bytes} {s : State} :
    unitSelected B mode x s = true ↔ s.cfg.mode = mode ∧ x.length = granularity B s.cfg := by
  rw [unitSelected, Bool.and_eq_true, decide_eq_true_iff, beq_iff_eq]

theorem exists_runUnit_next_iff {B : Nat} {mode : Mode} {x : Bytes} {u : UnitResult} {s : State} :
    (∃ t, runUnit B mode x u s = .next t) ↔ s.cfg.mode = mode ∧ x.length = granularity B s.cfg :=
  ⟨fun ⟨_, h⟩ => unitSelected_iff.mp (runUnit_next h).1, fun ⟨hm, hx⟩ => ⟨_, runUnit_selected u hm hx⟩⟩

theorem modeOp_unit {P : Primitive} (dec : Bool) {x : Bytes} {s : State} (hx : x.length = granularity P.B s.cfg)
    (hpos : 0 < x.length) : modeOp P dec x s = applyUnit (unitStep P s.cfg dec s.regR x) s := by
  rw [modeOp, modeRun_unit dec s.regR (hx ▸ hpos) hx]

/-! ## ENCRYPT and DECRYPT -/

theorem complete_modeOp_openOutput (P : Primitive) (dec : Bool) (data : Bytes) (s : State) :
    let run := modeRun P s.cfg dec (unitsOf (granularity P.B s.cfg) data) s.regR
    complete (modeOp P dec data (openOutput s)) = respond .ok run.y { s with regR := run.nextR } := rfl

/-- The three outcomes, each as the state the response is given on (R105, R106). -/
theorem directCommand_respond (P : Primitive) (dec : Bool) (data : Bytes) (s : State) :
    let g := granularity P.B s.cfg
    let run := modeRun P s.cfg dec (unitsOf g data) s.regR
    (s.fsm = .uninit → directCommand P dec data s = .next (respond .illegalState [] s)) ∧
    (s.fsm ≠ .uninit → data.length % g ≠ 0 →
      directCommand P dec data s = .next (respond .unalignedLength [] s)) ∧
    (s.fsm ≠ .uninit → data.length % g = 0 →
      directCommand P dec data s = .next (respond .ok run.y { s with regR := run.nextR })) := by
  refine ⟨directCommand_uninit dec, directCommand_unaligned dec, fun hf hd => ?_⟩
  rw [directCommand_aligned dec hf hd, complete_modeOp_openOutput]

/-- DECRYPT of what ENCRYPT put out, from an equal register (R111 item 1). -/
theorem directCommand_roundTrip {P : Primitive} {p : Bytes} {s t : State} (h : Inv P.B s) (hf : s.fsm ≠ .uninit)
    (hp : p.length % granularity P.B s.cfg = 0) (hP : s.cfg.mode = .ecb ∨ s.cfg.mode = .cbc → P.Inverse)
    (hcfg : t.cfg = s.cfg) (hR : t.regR = s.regR) (hft : t.fsm ≠ .uninit) :
    ∃ u v, directCommand P false p s = .next u ∧ directCommand P true (lastOut u) t = .next v ∧
      v.lastErr = .ok ∧ lastOut v = p ∧ v.regR = u.regR := by
  have hc : CfgLegal P.B s.cfg := h.cfgLegal hf
  have henc : lastOut (complete (modeOp P false p (openOutput s))) =
      (modeRun P s.cfg false (unitsOf (granularity P.B s.cfg) p) s.regR).y := lastOut_complete _
  have hwhole : (lastOut (complete (modeOp P false p (openOutput s)))).length % granularity P.B t.cfg = 0 := by
    rw [henc, (length_modeRun false hc hp h.lengthR).1, hcfg, hp]
  refine ⟨_, _, directCommand_aligned false hf hp, directCommand_aligned true hft hwhole, rfl, ?_⟩
  simp [hcfg, hR, modeRun_roundTrip hP hc hp h.lengthR]

/-- The output over `a ++ b` begins with the output over `a`, whatever `b` is (R111 item 3). -/
theorem directCommand_append_output {P : Primitive} (dec : Bool) {a b : Bytes} {s : State} (hf : s.fsm ≠ .uninit)
    (ha : a.length % granularity P.B s.cfg = 0) (hb : b.length % granularity P.B s.cfg = 0) :
    ∃ t, directCommand P dec (a ++ b) s = .next t ∧
      (modeRun P s.cfg dec (unitsOf (granularity P.B s.cfg) a) s.regR).y <+: lastOut t := by
  have hab : (a ++ b).length % granularity P.B s.cfg = 0 := by
    rw [List.length_append, Nat.add_mod, ha, hb, Nat.add_zero, Nat.zero_mod]
  refine ⟨_, directCommand_aligned dec hf hab, ?_⟩
  rw [lastOut_complete, modeOp_append (s := openOutput s) dec b ha]
  exact List.prefix_append _ _

/-- Two runs that share their first units share the output of those units (R111 item 3). -/
theorem directCommand_earlier_output {P : Primitive} (dec : Bool) {a b c : Bytes} {s : State} (h : Inv P.B s)
    (hf : s.fsm ≠ .uninit) (ha : a.length % granularity P.B s.cfg = 0) (hb : b.length % granularity P.B s.cfg = 0)
    (hc : c.length % granularity P.B s.cfg = 0) :
    ∃ t u, directCommand P dec (a ++ b) s = .next t ∧ directCommand P dec (a ++ c) s = .next u ∧
      (lastOut t).take a.length = (lastOut u).take a.length ∧ a.length ≤ (lastOut t).length := by
  obtain ⟨t, ht, htOut⟩ := directCommand_append_output dec hf ha hb
  obtain ⟨u, hu, huOut⟩ := directCommand_append_output dec hf ha hc
  have hlen := (length_modeRun dec (h.cfgLegal hf) ha h.lengthR).1
  have htTake := List.prefix_iff_eq_take.mp htOut
  have huTake := List.prefix_iff_eq_take.mp huOut
  rw [hlen] at htTake huTake
  exact ⟨t, u, ht, hu, htTake.symm.trans huTake, hlen ▸ htOut.length_le⟩

end Sys2Proof.Machine

namespace Sys2Proof.Proofs

open Sys2Proof Sys2Proof.Machine

/-- Settles O31: the two cases of R102, and the bounds a legal width gives. -/
theorem granularityRule : Obligations.GranularityRule :=
  fun _ => ⟨granularity_cfb, granularity_block, fun h hf => granularity_bounds Config.B_bounds.1 (h.cfgLegal hf)⟩

/-- Settles O22: ENCRYPT is `directCommand` with the encrypt steps. -/
theorem encryptRunsModeLayer : Obligations.EncryptRunsModeLayer :=
  directCommand_respond Config.primitive false

/-- Settles O23: DECRYPT is `directCommand` with the decrypt steps. -/
theorem decryptRunsModeLayer : Obligations.DecryptRunsModeLayer :=
  directCommand_respond Config.primitive true

/-- Settles O28: each unit arm is a `runUnit`, whose guard is the condition stated. -/
theorem unitStepStopsUnlessSelected : Obligations.UnitStepStopsUnlessSelected := by
  intro mode dec x s
  rw [exec_ofUnit]
  exact exists_runUnit_next_iff

/-- Settles O29: under `CFG.MODE` the arm applies the very step `ModeOp` applies to its one unit. -/
theorem dispatcherRunsSelectedUnitStep : Obligations.DispatcherRunsSelectedUnitStep := by
  intro dec x s hx hpos
  rw [exec_ofUnit, runUnit_selected _ rfl hx, modeOp_unit (P := Config.primitive) dec hx hpos]

/-- Settles O52: unit by unit the decrypt step undoes the encrypt step and leaves the same register. -/
theorem modeLayerRoundTrip : Obligations.ModeLayerRoundTrip :=
  fun _ _ _ _ h hf hp hP hcfg hR hft => directCommand_roundTrip h hf hp hP hcfg hR hft

/-- Settles O54: in both runs the first `|a|` output bytes are the output over `a` alone. -/
theorem laterUnitsNeverChangeEarlierOutput : Obligations.LaterUnitsNeverChangeEarlierOutput := by
  intro a b c s h hf ha hb hc i hi
  rcases List.mem_pair.mp hi with rfl | rfl
  · exact directCommand_earlier_output (P := Config.primitive) false h hf ha hb hc
  · exact directCommand_earlier_output (P := Config.primitive) true h hf ha hb hc

end Sys2Proof.Proofs

/-! ecb_engine (41_ecb.md): the selected step of a mode whose unit is one block, and ECB's, which leaves `R` (R120). -/

namespace Sys2Proof.Machine

/-- Outside CFB one block is one unit (R102), so the selected step runs on it. -/
theorem runUnit_block {B : Nat} {mode : Mode} {x : Bytes} (u : UnitResult) {s : State} (hne : mode ≠ .cfb)
    (hm : s.cfg.mode = mode) (hx : x.length = B) : runUnit B mode x u s = .next (applyUnit u s) :=
  runUnit_selected u hm (hx.trans (granularity_block (hm ▸ hne)).symm)

/-- The next register of either ECB step is the old one, so applying it only puts out the block (R120). -/
theorem applyUnit_unitStep_ecb {P : Primitive} {cfg : Cfg} (hm : cfg.mode = .ecb) (dec : Bool) (x : Bytes) (s : State) :
    applyUnit (unitStep P cfg dec s.regR x) s = emit (primPort P (if dec then .d else .e) x) s := by
  cases dec <;> simp only [unitStep, hm] <;> rfl

/-- ECB.ENC and ECB.DEC in one equation (R121, R122). -/
theorem exec_ofUnit_ecb (dec : Bool) {x : Bytes} {s : State} (hm : s.cfg.mode = .ecb) (hx : x.length = Config.B) :
    exec (Instr.ofUnit .ecb dec x) s = .next (emit (primPort Config.primitive (if dec then .d else .e) x) s) := by
  rw [exec_ofUnit, runUnit_block _ (by decide) hm hx, applyUnit_unitStep_ecb rfl]

end Sys2Proof.Machine

namespace Sys2Proof.Proofs

open Sys2Proof Sys2Proof.Machine

/-- Settles O24: each ECB arm puts out the port's reply to its block and leaves `R`. -/
theorem ecbUnitSteps : Obligations.EcbUnitSteps :=
  fun _ _ hm hx => ⟨exec_ofUnit_ecb false hm hx, exec_ofUnit_ecb true hm hx⟩

end Sys2Proof.Proofs

/-! cbc_engine (42_cbc.md): the two chaining steps, which keep the last ciphertext block in `R` (R131, R132). -/

namespace Sys2Proof.Machine

/-- CBC.ENC chains the block with `R`; its ciphertext is put out and is the next register (R131). -/
theorem exec_cbcEnc {x : Bytes} {s : State} (hm : s.cfg.mode = .cbc) (hx : x.length = Config.B) :
    exec (.cbcEnc x) s = .next (applyUnit (cbcEncStep Config.primitive s.regR x) s) :=
  runUnit_block _ (by decide) hm hx

/-- CBC.DEC unchains with the old `R`; the ciphertext it was given is the next register (R132). -/
theorem exec_cbcDec {x : Bytes} {s : State} (hm : s.cfg.mode = .cbc) (hx : x.length = Config.B) :
    exec (.cbcDec x) s = .next (applyUnit (cbcDecStep Config.primitive s.regR x) s) :=
  runUnit_block _ (by decide) hm hx

end Sys2Proof.Machine

namespace Sys2Proof.Proofs

open Sys2Proof Sys2Proof.Machine

/-- Settles O25: each CBC arm applies its chaining step, ENC with the ciphertext it makes as `R`, DEC with the one it
takes. -/
theorem cbcUnitSteps : Obligations.CbcUnitSteps :=
  fun _ _ hm hx => ⟨exec_cbcEnc hm hx, exec_cbcDec hm hx⟩

end Sys2Proof.Proofs

/-! cfb_engine (43_cfb.md): the two shift-register steps, whose unit is `W` bytes; both take their keystream from `E`, and
the ciphertext fills the high indexes of `R` (R141, R142). -/

namespace Sys2Proof.Machine

/-- Under CFB the unit is `W` bytes (R140), so the selected step runs on an input of that length. -/
theorem runUnit_cfb {B : Nat} {x : Bytes} (u : UnitResult) {s : State} (hm : s.cfg.mode = .cfb)
    (hx : x.length = s.cfg.w.toNat) : runUnit B .cfb x u s = .next (applyUnit u s) :=
  runUnit_selected u hm (hx.trans (granularity_cfb hm).symm)

theorem exec_cfbEnc {x : Bytes} {s : State} (hm : s.cfg.mode = .cfb) (hx : x.length = s.cfg.w.toNat) :
    exec (.cfbEnc x) s = .next (applyUnit (cfbEncStep Config.primitive s.cfg.w.toNat s.regR x) s) :=
  runUnit_cfb _ hm hx

theorem exec_cfbDec {x : Bytes} {s : State} (hm : s.cfg.mode = .cfb) (hx : x.length = s.cfg.w.toNat) :
    exec (.cfbDec x) s = .next (applyUnit (cfbDecStep Config.primitive s.cfg.w.toNat s.regR x) s) :=
  runUnit_cfb _ hm hx

/-- From a whole block, shifting in drops the first `w` bytes and keeps the rest in front (20_memory.md R52 item 4). -/
theorem shiftIn_block {B : Nat} {r : Bytes} (w : Nat) (v : Bytes) (hr : r.length = B) :
    shiftIn B w r v = r.drop w ++ v := by
  rw [shiftIn, slice_to_length r w hr]

/-- CFB.ENC refills `R` with the bytes it puts out (R141). -/
theorem cfbEncStep_block {P : Primitive} {r : Bytes} (w : Nat) (x : Bytes) (hr : r.length = P.B) :
    cfbEncStep P w r x =
      { nextR := r.drop w ++ xorBytes ((primPort P .e r).take w) x, y := xorBytes ((primPort P .e r).take w) x } := by
  rw [cfbEncStep, shiftIn_block _ _ hr, slice_zero]

/-- CFB.DEC refills `R` with the bytes it takes; its keystream too comes from `E` (R142). -/
theorem cfbDecStep_block {P : Primitive} {r : Bytes} (w : Nat) (x : Bytes) (hr : r.length = P.B) :
    cfbDecStep P w r x = { nextR := r.drop w ++ x, y := xorBytes ((primPort P .e r).take w) x } := by
  rw [cfbDecStep, shiftIn_block _ _ hr, slice_zero]

end Sys2Proof.Machine

namespace Sys2Proof.Proofs

open Sys2Proof Sys2Proof.Machine

/-- Settles O26: each CFB arm applies its shift-register step, which on a block of `R` is the one stated. -/
theorem cfbUnitSteps : Obligations.CfbUnitSteps := by
  intro x s hm hx hr
  constructor
  · rw [exec_cfbEnc hm hx, cfbEncStep_block (P := Config.primitive) _ _ hr]; rfl
  · rw [exec_cfbDec hm hx, cfbDecStep_block (P := Config.primitive) _ _ hr]; rfl

end Sys2Proof.Proofs

/-! ofb_engine (44_ofb.md): the keystream is the chain of `E` from `R`. It reads no data, so in both directions the output
is the data XOR the keystream, bit by bit (R151, R153). -/

namespace Sys2Proof.Machine

/-- OFB.STEP puts out the block XOR the new `R` (R151). -/
theorem exec_ofbStep {x : Bytes} {s : State} (hm : s.cfg.mode = .ofb) (hx : x.length = Config.B) :
    exec (.ofbStep x) s = .next (applyUnit (ofbStep Config.primitive s.regR x) s) :=
  runUnit_block _ (by decide) hm hx

/-- The selected step of OFB is the same in both directions (R151). -/
theorem unitStep_ofb {P : Primitive} {cfg : Cfg} (hm : cfg.mode = .ofb) (dec : Bool) (r x : Bytes) :
    unitStep P cfg dec r x = ofbStep P r x := by
  cases dec <;> simp only [unitStep, hm]

/-- The keystream of `n` blocks from the register `r`: each block is `E` of the one before (R151, R153). -/
def ofbKeystream (P : Primitive) : Nat → Bytes → Bytes
  | 0, _ => []
  | n + 1, r => primPort P .e r ++ ofbKeystream P n (primPort P .e r)

@[simp] theorem length_ofbKeystream (P : Primitive) (n : Nat) (r : Bytes) : (ofbKeystream P n r).length = n * P.B := by
  induction n generalizing r with
  | zero => simp [ofbKeystream]
  | succ n ih => simp [ofbKeystream, ih, Nat.succ_mul, Nat.add_comm]

/-- An OFB run reads the data only in the XOR with the keystream; `R` ends where the chain of `E` does (R153). -/
theorem modeRun_ofb {P : Primitive} {cfg : Cfg} (hm : cfg.mode = .ofb) (dec : Bool) :
    ∀ data : Bytes, data.length % P.B = 0 → ∀ r : Bytes,
      modeRun P cfg dec (unitsOf (granularity P.B cfg) data) r =
        { nextR := (primPort P .e)^[data.length / P.B] r
          y := xorBytes data (ofbKeystream P (data.length / P.B) r) } := by
  have hB : 0 < P.B := P.bounds.1
  have hg : granularity P.B cfg = P.B := granularity_block (by simp [hm])
  refine units_induction ?nil ?unit
  case nil => simp [unitsOf_nil, modeRun, ofbKeystream, xorBytes]
  case unit =>
    intro x rest hx _ ih r
    have hn : (x ++ rest).length / P.B = rest.length / P.B + 1 := by
      rw [List.length_append, hx, Nat.add_div_left _ hB]
    have hk : x.length = (primPort P .e r).length := by rw [hx, length_primPort]
    rw [modeRun_cons dec rest r (hB.trans_eq hg.symm) (hx.trans hg.symm), unitStep_ofb hm, ih, hn,
      Function.iterate_succ_apply, ofbKeystream, xorBytes_append hk]
    rfl

/-- ENCRYPT and DECRYPT under OFB: one answer for both directions (R151, R153). -/
theorem directCommand_ofb {P : Primitive} (dec : Bool) {data : Bytes} {s : State} (hf : s.fsm ≠ .uninit)
    (hm : s.cfg.mode = .ofb) (hd : data.length % P.B = 0) :
    directCommand P dec data s =
      .next (respond .ok (xorBytes data (ofbKeystream P (data.length / P.B) s.regR))
        { s with regR := (primPort P .e)^[data.length / P.B] s.regR }) := by
  have hg : granularity P.B s.cfg = P.B := granularity_block (by simp [hm])
  obtain ⟨-, -, haligned⟩ := directCommand_respond P dec data s
  rw [haligned hf (hg.symm ▸ hd), modeRun_ofb hm dec data hd]

/-- One word XORed into both sides drops out. -/
theorem xor_xor_xor_right {n : Nat} (x y z : BitVec n) : x ^^^ z ^^^ (y ^^^ z) = x ^^^ y := by
  rw [BitVec.xor_comm y z, BitVec.xor_assoc, ← BitVec.xor_assoc z z, BitVec.xor_self, BitVec.zero_xor]

/-- One string XORed into both sides drops out. -/
theorem xorBytes_xorBytes_right {a b k : Bytes} (ha : a.length = k.length) (hb : b.length = k.length) :
    xorBytes (xorBytes a k) (xorBytes b k) = xorBytes a b := by
  refine List.ext_getElem (by simp [ha, hb]) fun i _ _ => ?_
  simp only [getElem_xorBytes, xor_xor_xor_right]

/-- The register and the output of an OFB command over two strings of one length (R153). -/
theorem directCommand_ofb_two {P : Primitive} (dec : Bool) {a b : Bytes} {s : State} (hf : s.fsm ≠ .uninit)
    (hm : s.cfg.mode = .ofb) (ha : a.length % P.B = 0) (hab : a.length = b.length) :
    ∃ t u, directCommand P dec a s = .next t ∧ directCommand P dec b s = .next u ∧ t.regR = u.regR ∧
      xorBytes (lastOut t) (lastOut u) = xorBytes a b := by
  have hk (r : Bytes) : a.length = (ofbKeystream P (a.length / P.B) r).length := by
    rw [length_ofbKeystream, Nat.div_mul_cancel (Nat.dvd_of_mod_eq_zero ha)]
  refine ⟨_, _, directCommand_ofb dec hf hm ha, directCommand_ofb dec hf hm (hab ▸ ha), ?_, ?_⟩
  · rw [← hab]
    rfl
  · rw [lastOut_respond, lastOut_respond, ← hab]
    exact xorBytes_xorBytes_right (hk _) (hab.symm.trans (hk _))

end Sys2Proof.Machine

namespace Sys2Proof.Proofs

open Sys2Proof Sys2Proof.Machine

/-- Settles O27: the arm applies OFB.STEP, whose XOR uses the register it leaves. -/
theorem ofbUnitStep : Obligations.OfbUnitStep :=
  fun _ _ hm hx => exec_ofbStep hm hx

/-- Settles O56: both outputs are the data XOR one keystream, which drops out, and `R` is the chain of `E` from the old
`R`, as long as the data. -/
theorem ofbFlipsOnlyTheSameBits : Obligations.OfbFlipsOnlyTheSameBits := by
  intro a b s _ hf hm ha hab i hi
  rcases List.mem_pair.mp hi with rfl | rfl
  · exact directCommand_ofb_two (P := Config.primitive) false hf hm ha hab
  · exact directCommand_ofb_two (P := Config.primitive) true hf hm ha hab

end Sys2Proof.Proofs

/-! feedback_register_update (45_feedback_register_update.md): what INIT loads and snapshots (R160, R161), who writes `R`
(R162), SAVE and RESTORE (R163 to R165, R168), and that the chaining modes keep the most recent ciphertext in `R`. -/

namespace Sys2Proof.Machine

/-! ## INIT, SAVE and RESTORE -/

/-- The load of R160 as a choice between two values. -/
theorem initialRegister_eq_ite (B : Nat) (mode : Mode) (iv : Bytes) :
    initialRegister B mode iv = if mode = .ecb then rep 0#8 B else iv := by
  cases mode <;> rfl

theorem exec_save_bound {s : State} (hf : s.fsm ≠ .uninit) :
    exec .save s = .next (complete (takeSnapshot (openOutput s))) := if_neg hf

theorem exec_save_uninit {s : State} (hf : s.fsm = .uninit) : exec .save s = .next (raise .illegalState s) := if_pos hf

theorem exec_restore_valid {s : State} (hv : s.sValid = true) :
    exec .restore s = .next (complete (restoreSnapshot (openOutput s))) := if_neg (by simp [hv])

theorem exec_restore_invalid {s : State} (hv : s.sValid = false) :
    exec .restore s = .next (raise .noSavedState s) := if_pos hv

/-! ## The writers of `R` (R162) -/

/-- `ModeOp` under ECB is no writer of `R` (41_ecb.md R120). -/
theorem modeOp_regR_ecb (P : Primitive) (dec : Bool) (data : Bytes) {s : State} (hm : s.cfg.mode = .ecb) :
    (modeOp P dec data s).regR = s.regR := modeRun_ecb_nextR hm dec _ s.regR

theorem updatePart_regR_ecb (P : Primitive) (data : Bytes) {s : State} (hm : s.cfg.mode = .ecb) :
    (updatePart P data s).regR = s.regR := modeOp_regR_ecb P _ _ hm

theorem finalPart_regR_ecb {P : Primitive} {s u : State} (hm : s.cfg.mode = .ecb) (h : finalPart P s = .ok u) :
    u.regR = s.regR := by
  obtain ⟨-, -, -, -, -, -, -, hkept | ⟨-, -, hpadded⟩⟩ := finalPart_ok h
  · exact hkept
  · exact hpadded.trans (modeOp_regR_ecb P false _ hm)

/-- A command that changes `R` is a successful INIT, RESTORE or RESET (which load it from `S`), or a data command in a mode
other than ECB. -/
theorem exec_changes_regR {i : Instr} {s t : State} (hc : i.isCommand = true) (he : exec i s = .next t)
    (hne : t.regR ≠ s.regR) :
    (∃ dir mode pad w iv, i = .init dir mode pad w iv ∧ t.lastErr = .ok) ∨
    (i = .restore ∧ t.regR = s.regS) ∨ (i = .reset ∧ t.regR = s.regS) ∨
    (s.cfg.mode ≠ .ecb ∧ s.fsm ≠ .uninit ∧
      ∃ d, i = .update d ∨ i = .dofinal d ∨ i = .encrypt d ∨ i = .decrypt d) := by
  rcases exec_next hc he with ⟨e, rfl, -⟩ | ⟨dir, mode, pad, w, iv, rfl, -, rfl⟩ | ⟨hf, d, rfl, rfl⟩ |
    ⟨hf, d, e, rfl, -, rfl⟩ | ⟨hf, d, u, rfl, hu, rfl⟩ | ⟨-, rfl, rfl⟩ | ⟨-, rfl, rfl⟩ | ⟨-, rfl, rfl⟩ |
    ⟨hf, d, dec, rfl, -, rfl⟩
  · exact absurd rfl hne
  · exact .inl ⟨dir, mode, pad, w, iv, rfl, rfl⟩
  · exact .inr (.inr (.inr ⟨mt (updatePart_regR_ecb _ d) hne, hf, d, .inl rfl⟩))
  · exact .inr (.inr (.inr ⟨mt (updatePart_regR_ecb _ d) hne, hf, d, .inr (.inl rfl)⟩))
  · have hkept (hm : s.cfg.mode = .ecb) : u.regR = s.regR :=
      (finalPart_regR_ecb (s := updatePart Config.primitive d (openOutput s)) hm hu).trans
        (updatePart_regR_ecb Config.primitive d (s := openOutput s) hm)
    exact .inr (.inr (.inr ⟨mt hkept hne, hf, d, .inr (.inl rfl)⟩))
  · exact .inr (.inr (.inl ⟨rfl, rfl⟩))
  · exact absurd rfl hne
  · exact .inr (.inl ⟨rfl, rfl⟩)
  · exact .inr (.inr (.inr ⟨mt (modeOp_regR_ecb _ dec d) hne, hf, d, by cases dec <;> simp⟩))

/-! ## Save, encrypt, restore, encrypt (R168) -/

theorem exec_encrypt_aligned {data : Bytes} {s : State} (hf : s.fsm ≠ .uninit)
    (hd : data.length % granularity Config.B s.cfg = 0) :
    exec (.encrypt data) s = .next (complete (modeOp Config.primitive false data (openOutput s))) :=
  directCommand_aligned (P := Config.primitive) false hf hd

/-! ## The chaining modes keep the most recent ciphertext in `R` (R162) -/

/-- The register `r` after the bytes `c` have been shifted in at its high indexes: the last `|r|` bytes of both. -/
def shiftRegister (r c : Bytes) : Bytes := (r ++ c).drop c.length

@[simp] theorem shiftRegister_nil (r : Bytes) : shiftRegister r [] = r := List.append_nil r

/-- Shifting in two strings one after the other is shifting in both. -/
theorem shiftRegister_append (r c d : Bytes) : shiftRegister r (c ++ d) = shiftRegister (shiftRegister r c) d := by
  have hle : c.length ≤ (r ++ c).length := by simp
  rw [shiftRegister, shiftRegister, shiftRegister, List.length_append, ← List.drop_drop, ← List.append_assoc,
    List.drop_append_of_le_length hle]

/-- A whole block replaces the register. -/
theorem shiftRegister_block {r c : Bytes} (h : c.length = r.length) : shiftRegister r c = c :=
  List.drop_left' h.symm

/-- A shorter string leaves the end of the register in front of it. -/
theorem shiftRegister_of_le {r c : Bytes} (h : c.length ≤ r.length) : shiftRegister r c = r.drop c.length ++ c :=
  List.drop_append_of_le_length h

/-- The ciphertext of a run: what it takes when it decrypts, what it puts out when it encrypts. -/
def ciphertextOf (dec : Bool) (data y : Bytes) : Bytes := if dec then data else y

theorem ciphertextOf_append (dec : Bool) (x data y z : Bytes) :
    ciphertextOf dec (x ++ data) (y ++ z) = ciphertextOf dec x y ++ ciphertextOf dec data z := by
  cases dec <;> rfl

section Chained

variable {P : Primitive} {cfg : Cfg} (hm : cfg.mode = .cbc ∨ cfg.mode = .cfb) (hc : CfgLegal P.B cfg) (dec : Bool)
include hm hc

/-- A unit step of CBC or CFB shifts its ciphertext into `R` (42_cbc.md R131, R132, 43_cfb.md R141, R142). -/
theorem unitStep_nextR_eq_shiftRegister {r x : Bytes} (hr : r.length = P.B) (hx : x.length = granularity P.B cfg) :
    (unitStep P cfg dec r x).nextR = shiftRegister r (ciphertextOf dec x (unitStep P cfg dec r x).y) := by
  have hlen : (ciphertextOf dec x (unitStep P cfg dec r x).y).length = granularity P.B cfg := by
    cases dec
    case false => exact (length_unitStep_y false hc hr hx).trans hx
    case true => exact hx
  rcases hm with hm | hm
  · rw [granularity_block (by simp [hm])] at hlen
    rw [shiftRegister_block (hlen.trans hr.symm)]
    cases dec <;> simp only [unitStep, hm] <;> rfl
  · have hle : granularity P.B cfg ≤ r.length := (granularity_le hc).trans_eq hr.symm
    rw [shiftRegister_of_le (hlen.trans_le hle), hlen, granularity_cfb hm]
    cases dec
    case false =>
      simp only [unitStep, hm, cfbEncStep_block _ _ hr]
      rfl
    case true =>
      simp only [unitStep, hm, cfbDecStep_block _ _ hr]
      rfl

/-- So does a run over any number of units. -/
theorem modeRun_nextR_eq_shiftRegister {data : Bytes} (hd : data.length % granularity P.B cfg = 0) {r : Bytes}
    (hr : r.length = P.B) :
    let run := modeRun P cfg dec (unitsOf (granularity P.B cfg) data) r
    run.nextR = shiftRegister r (ciphertextOf dec data run.y) := by
  have hg : 0 < granularity P.B cfg := (granularity_bounds P.bounds.1 hc).1
  refine units_induction (motive := fun data => ∀ r : Bytes, r.length = P.B →
    let run := modeRun P cfg dec (unitsOf (granularity P.B cfg) data) r
    run.nextR = shiftRegister r (ciphertextOf dec data run.y)) ?nil ?unit data hd r hr
  case nil =>
    intro r _
    rw [unitsOf_nil]
    cases dec <;> exact (shiftRegister_nil r).symm
  case unit =>
    intro x rest hx _ ih r hr
    have hrest := ih _ (length_unitStep_nextR dec hc hr hx)
    simp only [modeRun_cons dec rest r hg hx, ciphertextOf_append, shiftRegister_append,
      ← unitStep_nextR_eq_shiftRegister hm hc dec hr hx]
    exact hrest

end Chained

/-- ENCRYPT and DECRYPT of whole units in CBC or CFB shift their ciphertext into `R`. -/
theorem directCommand_regR_eq_shiftRegister {P : Primitive} {dec : Bool} {data : Bytes} {s t : State} (h : Inv P.B s)
    (hf : s.fsm ≠ .uninit) (hm : s.cfg.mode = .cbc ∨ s.cfg.mode = .cfb)
    (hd : data.length % granularity P.B s.cfg = 0) (ht : directCommand P dec data s = .next t) :
    t.regR = shiftRegister s.regR (ciphertextOf dec data (lastOut t)) := by
  cases (directCommand_aligned dec hf hd).symm.trans ht
  rw [lastOut_complete]
  exact modeRun_nextR_eq_shiftRegister hm (h.cfgLegal hf) dec hd h.lengthR

end Sys2Proof.Machine

namespace Sys2Proof.Proofs

open Sys2Proof Sys2Proof.Machine

/-- Settles O36: of the steps that are no hardware reset only a decoded command writes `R`, and
`exec_changes_regR` lists those. -/
theorem registerWriters : Obligations.RegisterWriters := by
  intro s t hstep hne
  rcases step_next hstep with ⟨-, rfl⟩ | ⟨rest, hin, -⟩ | ⟨q, rest, i, hin, hq, he⟩ | ⟨q, rest, why, -, -, rfl⟩
  · exact absurd rfl hne
  · exact .inl ⟨rest, hin⟩
  · have hwriter := exec_changes_regR (decode_isCommand hq) he hne
    exact .inr ⟨q, rest, i, hin, hq, hwriter⟩
  · exact absurd rfl hne

/-- Settles O55: SAVE keeps `CFG` and `R`, and RESTORE brings that `R` back under the same `CFG`; a run of unit steps
reads no other field (`modeOp_regR`, `modeOp_out`), so both ENCRYPTs answer alike. -/
theorem saveRestoreIdempotence : Obligations.SaveRestoreIdempotence := by
  intro a s hf ha
  refine ⟨_, _, _, _, exec_save_bound hf, exec_encrypt_aligned hf ha, exec_restore_valid rfl,
    exec_encrypt_aligned hf ha, rfl, rfl, ?_⟩
  simp

/-- Settles O57: in both directions a run shifts its ciphertext into `R` unit by unit. -/
theorem registerIsRecentCiphertext : Obligations.RegisterIsRecentCiphertext :=
  fun _ _ _ h hf hm hd =>
    ⟨directCommand_regR_eq_shiftRegister (P := Config.primitive) (dec := false) h hf hm hd,
      directCommand_regR_eq_shiftRegister (P := Config.primitive) (dec := true) h hf hm hd⟩

/-- Settles O11: an accepted INIT loads the register of its mode and takes the snapshot of it. -/
theorem initLoadsAndSnapshots : Obligations.InitLoadsAndSnapshots := by
  intro dir mode pad w iv s hiv
  rw [exec_init_accepted hiv, ← initialRegister_eq_ite]
  rfl

/-- Settles O20: the two branches of SAVE. -/
theorem saveTakesSnapshot : Obligations.SaveTakesSnapshot :=
  fun _ => ⟨exec_save_bound, exec_save_uninit⟩

/-- Settles O21: the two branches of RESTORE, which reads `S_VALID` and not `FSM`. -/
theorem restoreRecoversRegister : Obligations.RestoreRecoversRegister :=
  fun _ => ⟨exec_restore_valid, exec_restore_invalid⟩

end Sys2Proof.Proofs

/-! PKCS5 padding (46_padding.md): which blocks `unpad` accepts (R184, R185), that it undoes `pad` (R181, R189), and
what is left of the state when it refuses (R187). -/

namespace Sys2Proof.Machine

/-! ## The claimed padding as a suffix -/

theorem drop_eq_rep_iff {B n : Nat} {l : Bytes} (v : Byte) (hl : l.length = B) (hn : n ≤ B) :
    l.drop (B - n) = rep v n ↔ ∀ i, B - n ≤ i → i < B → l.getD i 0#8 = v := by
  constructor
  · intro hdrop i hlo hi
    have hlast : (l.drop (B - n)).getD (i - (B - n)) 0#8 = v := by
      rw [hdrop]
      exact List.getD_replicate _ (by omega)
    rwa [List.getD_eq_getElem?_getD, List.getElem?_drop, Nat.add_sub_cancel' hlo] at hlast
  · intro hall
    refine List.ext_getElem (by rw [List.length_drop, length_rep]; omega) fun j hj _ => ?_
    rw [List.length_drop] at hj
    have hbyte := hall (B - n + j) (by omega) (by omega)
    rw [List.getD_eq_getElem _ _ (by omega)] at hbyte
    simpa [rep] using hbyte

/-- A byte holds the value `n` exactly when it is the byte that `pad` appends for `n`. -/
theorem byte_toNat_eq_iff {n : Nat} (hn : n ≤ 255) (v : Byte) : v.toNat = n ↔ v = BitVec.ofNat 8 n := by
  rw [BitVec.toNat_eq, BitVec.toNat_ofNat, Nat.mod_eq_of_lt (by omega)]

/-- `PadBytesOk(L, n)` says that `L` ends as `pad` would have left it with `n` bytes to fill (R185). -/
theorem padBytesOk_iff_drop_eq_rep {B n : Nat} {l : Bytes} (hB : B ≤ 255) (hl : l.length = B) (hn : n ≤ B) :
    padBytesOk B l n = true ↔ l.drop (B - n) = rep (BitVec.ofNat 8 n) n := by
  simp only [padBytesOk_iff hn, drop_eq_rep_iff _ hl hn, byte_toNat_eq_iff (hn.trans hB)]

/-! ## `unpad` and `pad` -/

/-- `unpad` by the number `n` its last byte claims (R184). -/
theorem unpadPkcs5_eq_some_iff_last {B : Nat} {l body : Bytes} (hB : B ≤ 255) (hl : l.length = B) :
    unpadPkcs5 B l = some body ↔
      ∃ n, n = (l.getD (B - 1) 0#8).toNat ∧ 1 ≤ n ∧ n ≤ B ∧ l.drop (B - n) = rep (BitVec.ofNat 8 n) n ∧
        body = l.take (B - n) := by
  simp only [unpadPkcs5, exists_eq_left, Option.ite_none_right_eq_some, Bool.and_eq_true, decide_eq_true_eq, and_assoc,
    Nat.one_le_iff_ne_zero, Option.some.injEq, @eq_comm _ body]
  refine and_congr_right fun _ => and_congr_right fun hn => ?_
  rw [padBytesOk_iff_drop_eq_rep hB hl hn]

/-- The last of `n` bytes of value `n` is itself one of them, so the claim need not be said apart. -/
theorem toNat_last_of_drop_eq_rep {B n : Nat} {l : Bytes} (hB : B ≤ 255) (hl : l.length = B) (h1 : 1 ≤ n) (hn : n ≤ B)
    (h : l.drop (B - n) = rep (BitVec.ofNat 8 n) n) : n = (l.getD (B - 1) 0#8).toNat := by
  have hlast := (drop_eq_rep_iff _ hl hn).mp h (B - 1) (by omega) (by omega)
  exact ((byte_toNat_eq_iff (hn.trans hB) _).mpr hlast).symm

/-- The blocks `unpad` accepts and what it returns (R184, R190). -/
theorem unpadPkcs5_eq_some_iff {B : Nat} {l body : Bytes} (hB : B ≤ 255) (hl : l.length = B) :
    unpadPkcs5 B l = some body ↔
      ∃ n, 1 ≤ n ∧ n ≤ B ∧ l.drop (B - n) = rep (BitVec.ofNat 8 n) n ∧ body = l.take (B - n) := by
  rw [unpadPkcs5_eq_some_iff_last hB hl]
  constructor
  · rintro ⟨n, -, h⟩
    exact ⟨n, h⟩
  · rintro ⟨n, h1, hn, hpad, hbody⟩
    exact ⟨n, toNat_last_of_drop_eq_rep hB hl h1 hn hpad, h1, hn, hpad, hbody⟩

/-- A partial block is filled up (R181); a whole one would get another block. -/
theorem padPkcs5_partial {B : Nat} {b : Bytes} (h : b.length < B) :
    padPkcs5 B b = b ++ rep (BitVec.ofNat 8 (B - b.length)) (B - b.length) := by
  rw [padPkcs5, Nat.mod_eq_of_lt h]

theorem drop_padPkcs5 {B : Nat} {b : Bytes} (h : b.length < B) :
    (padPkcs5 B b).drop b.length = rep (BitVec.ofNat 8 (B - b.length)) (B - b.length) := by
  rw [padPkcs5_partial h, List.drop_left]

theorem take_padPkcs5 {B : Nat} {b : Bytes} (h : b.length < B) : (padPkcs5 B b).take b.length = b := by
  rw [padPkcs5_partial h, List.take_left]

theorem unpadPkcs5_padPkcs5 {B : Nat} {b : Bytes} (hB : B ≤ 255) (h : b.length < B) :
    unpadPkcs5 B (padPkcs5 B b) = some b := by
  rw [unpadPkcs5_eq_some_iff hB (length_padPkcs5 h)]
  refine ⟨B - b.length, by omega, by omega, ?_, ?_⟩ <;> rw [Nat.sub_sub_self h.le]
  · exact drop_padPkcs5 h
  · exact (take_padPkcs5 h).symm

/-! ## A refused padding -/

/-- Only the final part that unpads raises `BadPadding`, and it has found `BUF` empty (47_accumulator.md R209). -/
theorem finalPart_badPadding_buf {P : Primitive} {s : State} (h : finalPart P s = .error .badPadding) : s.buf = [] := by
  cases hp : s.cfg.pad
  case noPadding =>
    rw [finalPart_noPadding hp] at h
    split at h <;> cases h
  case pkcs5 =>
    cases hd : s.cfg.dir
    case enc =>
      rw [finalPart_encPkcs5 hd hp] at h
      split at h <;> cases h
    case dec =>
      rw [finalPart_decPkcs5 hd hp] at h
      split at h
      · cases h
      · rename_i hwhole
        exact not_not.mp (not_or.mp hwhole).1

/-- A DOFINAL that answers `BadPadding` did so in its final part, with nothing left in `BUF`. -/
theorem dofinalCommand_badPadding {P : Primitive} {data : Bytes} {s t : State}
    (h : dofinalCommand P data s = .next t) (he : t.lastErr = .badPadding) :
    s.fsm ≠ .uninit ∧ (updatePart P data (openOutput s)).buf = [] ∧
      t = raise .badPadding (updatePart P data (openOutput s)) := by
  rcases dofinalCommand_next h with ⟨-, rfl⟩ | ⟨hf, e, hfinal, rfl⟩ | ⟨-, u, -, rfl⟩
  · cases he
  · obtain rfl : e = .badPadding := he
    exact ⟨hf, finalPart_badPadding_buf hfinal, rfl⟩
  · cases he

/-- `STATUS` after `BadPadding`: error 5, UPDATING, `S_VALID`, `BUF_CNT = 0` (10_state.md R33). -/
theorem statusWord_raise_badPadding {s : State} (hf : s.fsm = .updating) (hv : s.sValid = true) (hb : s.buf = []) :
    statusWord (raise .badPadding s) = 0x00000065#32 := by
  simp only [statusWord, bufCnt, raise_lastErr, raise_fsm, raise_sValid, raise_buf, hf, hv, hb]
  rfl

end Sys2Proof.Machine

namespace Sys2Proof.Proofs

open Sys2Proof Sys2Proof.Machine

/-- Settles O44: the state a bad padding leaves has each field of `STATUS` fixed, `BUF` and `FSM` by the update part and
`S_VALID` by the invariant. -/
theorem badPaddingIsUniform : Obligations.BadPaddingIsUniform := by
  intro d s t hinv hexec herr
  obtain ⟨hf, hbuf, rfl⟩ := dofinalCommand_badPadding (P := Config.primitive) hexec herr
  have hstatus := statusWord_raise_badPadding (s := updatePart Config.primitive d (openOutput s)) rfl
    (hinv.modeBound.mpr hf) hbuf
  rw [raise_responses, hstatus]
  rfl

/-- Settles O58: `unpad` compares the bytes its last byte claims, and that byte is one of them. -/
theorem unpadAcceptsExactly : Obligations.UnpadAcceptsExactly :=
  fun _ _ _ _ hB hl => unpadPkcs5_eq_some_iff hB hl

/-- Settles O59: the padded block ends in the bytes `unpad` accepts, and `b` is what precedes them. -/
theorem paddingRoundTrip : Obligations.PaddingRoundTrip :=
  fun _ _ hB h => ⟨length_padPkcs5 h, unpadPkcs5_padPkcs5 hB h, drop_padPkcs5 h⟩

end Sys2Proof.Proofs

/-! The accumulator's commands in one equation each (47_accumulator.md): INIT (R200, R201), UPDATE (R204), the final parts
of DOFINAL (R206 to R211) and RESET (R213, R214). -/

namespace Sys2Proof.Machine

/-! ## INIT and RESET -/

theorem exec_init_refused {dir : Dir} {mode : Mode} {pad : Pad} {w : BitVec 8} {iv : Bytes}
    (hiv : ¬ IvLegal Config.B mode iv) (s : State) :
    exec (.init dir mode pad w iv) s = .next (raise .invalidIv s) :=
  if_neg (mt (ivAccepted_iff _ _ _).mp hiv)

theorem exec_reset_bound {s : State} (hf : s.fsm ≠ .uninit) :
    exec .reset s =
      .next (complete { restoreSnapshot (openOutput s) with buf := [], fsm := .initialized }) := if_neg hf

theorem exec_reset_uninit {s : State} (hf : s.fsm = .uninit) :
    exec .reset s = .next (raise .illegalState s) := if_pos hf

/-! ## The update part of a command that has put out nothing -/

theorem updateCommand_uninit {P : Primitive} (data : Bytes) {s : State} (hf : s.fsm = .uninit) :
    updateCommand P data s = .next (raise .illegalState s) := if_pos hf

/-- The units of `BUF ++ data`, run from `R` in the direction of `CFG` (R204). -/
def bufferRun (P : Primitive) (data : Bytes) (s : State) : UnitResult :=
  modeRun P s.cfg (decide (s.cfg.dir = .dec)) (unitsOf (granularity P.B s.cfg) (s.buf ++ data)) s.regR

/-- What of `BUF ++ data` is less than one unit (R204). -/
def bufferRest (P : Primitive) (data : Bytes) (s : State) : Bytes :=
  (s.buf ++ data).drop ((s.buf ++ data).length / granularity P.B s.cfg * granularity P.B s.cfg)

theorem updatePart_openOutput (P : Primitive) (data : Bytes) (s : State) :
    updatePart P data (openOutput s) =
      { s with
        regR := (bufferRun P data s).nextR, buf := bufferRest P data s, fsm := .updating
        out := (bufferRun P data s).y } := updatePart_eq P data (openOutput s)

/-- Running the whole-unit part of `BUF ++ data` is running all its units. -/
theorem modeRun_take_whole (P : Primitive) (data : Bytes) {dec : Bool} {s : State}
    (hdir : decide (s.cfg.dir = .dec) = dec) :
    let t := s.buf ++ data
    let g := granularity P.B s.cfg
    modeRun P s.cfg dec (unitsOf g (t.take (t.length / g * g))) s.regR = bufferRun P data s := by
  simp only [unitsOf_take_whole, ← hdir]
  rfl

theorem bufferRest_eq_nil_iff {P : Primitive} {data : Bytes} {s : State} :
    bufferRest P data s = [] ↔ (s.buf ++ data).length % granularity P.B s.cfg = 0 := drop_whole_eq_nil

/-- With nothing new and less than one unit in `BUF`, the update part runs nothing. -/
theorem bufferRun_nil {P : Primitive} {s : State} (hbuf : s.buf.length < granularity P.B s.cfg) :
    bufferRun P [] s = ⟨s.regR, []⟩ := by
  rw [bufferRun, List.append_nil, unitsOf, Nat.div_eq_of_lt hbuf]
  rfl

theorem bufferRest_nil {P : Primitive} {s : State} (hbuf : s.buf.length < granularity P.B s.cfg) :
    bufferRest P [] s = s.buf := by
  rw [bufferRest, List.append_nil, Nat.div_eq_of_lt hbuf, Nat.zero_mul, List.drop_zero]

/-! ## UPDATE and DOFINAL outside UNINIT, each outcome as the state the response is given on -/

section Bound

variable (P : Primitive) (data : Bytes) {s : State} (hf : s.fsm ≠ .uninit)
include hf

theorem updateCommand_respond :
    updateCommand P data s =
      .next (respond .ok (bufferRun P data s).y
        { s with regR := (bufferRun P data s).nextR, buf := bufferRest P data s, fsm := .updating }) := by
  rw [updateCommand_bound hf, updatePart_openOutput]
  rfl

/-- A final part that fails leaves the state of the update part (60_exceptions.md R241). -/
theorem dofinalCommand_respond_error {e : Err}
    (h : finalPart P (updatePart P data (openOutput s)) = .error e) :
    dofinalCommand P data s =
      .next (respond e []
        { s with regR := (bufferRun P data s).nextR, buf := bufferRest P data s, fsm := .updating }) := by
  rw [dofinalCommand_error hf data h, updatePart_openOutput]
  rfl

theorem dofinalCommand_noPadding_whole (hp : s.cfg.pad = .noPadding) (hrest : bufferRest P data s = []) :
    dofinalCommand P data s =
      .next (respond .ok (bufferRun P data s).y
        { s with regR := (bufferRun P data s).nextR, buf := [], fsm := .finalized }) := by
  have hfinal : finalPart P (updatePart P data (openOutput s)) = .ok (updatePart P data (openOutput s)) := by
    rw [finalPart_noPadding (s := updatePart P data (openOutput s)) hp, updatePart_openOutput, if_pos hrest]
  rw [dofinalCommand_ok hf data hfinal, updatePart_openOutput, hrest]
  rfl

theorem dofinalCommand_noPadding_residue (hp : s.cfg.pad = .noPadding) (hrest : bufferRest P data s ≠ []) :
    dofinalCommand P data s =
      .next (respond .incompleteBlock []
        { s with regR := (bufferRun P data s).nextR, buf := bufferRest P data s, fsm := .updating }) := by
  refine dofinalCommand_respond_error P data hf ?_
  rw [finalPart_noPadding (s := updatePart P data (openOutput s)) hp, updatePart_openOutput, if_neg hrest]

section EncPkcs5

variable (hd : s.cfg.dir = .enc) (hp : s.cfg.pad = .pkcs5)
include hd hp

/-- The padded rest is run from where the update part left `R` (R206). -/
theorem dofinalCommand_encPkcs5_divides (hg : P.B % granularity P.B s.cfg = 0) :
    let last := modeRun P s.cfg false
      (unitsOf (granularity P.B s.cfg) (padPkcs5 P.B (bufferRest P data s))) (bufferRun P data s).nextR
    dofinalCommand P data s =
      .next (respond .ok ((bufferRun P data s).y ++ last.y)
        { s with regR := last.nextR, buf := [], fsm := .finalized }) := by
  have hfinal := (finalPart_encPkcs5 (P := P) (s := updatePart P data (openOutput s)) hd hp).trans (if_pos hg)
  rw [dofinalCommand_ok hf data hfinal, updatePart_openOutput]
  rfl

theorem dofinalCommand_encPkcs5_not_divides (hg : P.B % granularity P.B s.cfg ≠ 0) :
    dofinalCommand P data s =
      .next (respond .unalignedLength []
        { s with regR := (bufferRun P data s).nextR, buf := bufferRest P data s, fsm := .updating }) :=
  dofinalCommand_respond_error P data hf
    ((finalPart_encPkcs5 (P := P) (s := updatePart P data (openOutput s)) hd hp).trans (if_neg hg))

end EncPkcs5

section DecPkcs5

variable (hd : s.cfg.dir = .dec) (hp : s.cfg.pad = .pkcs5)
include hd hp

theorem dofinalCommand_decPkcs5_incomplete
    (h : bufferRest P data s ≠ [] ∨ (bufferRun P data s).y.length < P.B) :
    dofinalCommand P data s =
      .next (respond .incompleteBlock []
        { s with regR := (bufferRun P data s).nextR, buf := bufferRest P data s, fsm := .updating }) := by
  refine dofinalCommand_respond_error P data hf ?_
  rw [finalPart_decPkcs5 (s := updatePart P data (openOutput s)) hd hp, updatePart_openOutput, if_pos h]

variable (hrest : bufferRest P data s = []) (hB : P.B ≤ (bufferRun P data s).y.length)
include hrest hB

theorem dofinalCommand_decPkcs5_badPadding
    (hbad : unpadPkcs5 P.B ((bufferRun P data s).y.drop ((bufferRun P data s).y.length - P.B)) = none) :
    dofinalCommand P data s =
      .next (respond .badPadding []
        { s with regR := (bufferRun P data s).nextR, buf := [], fsm := .updating }) := by
  have hfinal : finalPart P (updatePart P data (openOutput s)) = .error .badPadding := by
    rw [finalPart_decPkcs5 (s := updatePart P data (openOutput s)) hd hp, updatePart_openOutput,
      if_neg (not_or.mpr ⟨not_not.mpr hrest, hB.not_gt⟩)]
    simp only [hbad]
  rw [dofinalCommand_respond_error P data hf hfinal, hrest]

/-- The last `B` bytes of the output of this command are checked and stripped (R209). -/
theorem dofinalCommand_decPkcs5_strips {body : Bytes}
    (hbody : unpadPkcs5 P.B ((bufferRun P data s).y.drop ((bufferRun P data s).y.length - P.B)) = some body) :
    dofinalCommand P data s =
      .next (respond .ok ((bufferRun P data s).y.take ((bufferRun P data s).y.length - (P.B - body.length)))
        { s with regR := (bufferRun P data s).nextR, buf := [], fsm := .finalized }) := by
  have hfinal := finalPart_decPkcs5 (P := P) (s := updatePart P data (openOutput s)) hd hp
  rw [updatePart_openOutput, if_neg (not_or.mpr ⟨not_not.mpr hrest, hB.not_gt⟩)] at hfinal
  simp only [hbody] at hfinal
  rw [← updatePart_openOutput] at hfinal
  rw [dofinalCommand_ok hf data hfinal, hrest]
  rfl

end DecPkcs5

end Bound

end Sys2Proof.Machine

namespace Sys2Proof.Proofs

open Sys2Proof Sys2Proof.Machine

/-- Settles O12: the two branches of INIT's check of the IV. -/
theorem initValidatesIv : Obligations.InitValidatesIv := by
  intro dir mode pad w iv s
  refine ⟨fun hiv => ⟨_, exec_init_accepted hiv s, rfl, fun hm => ?_, fun hm => ?_⟩, fun hiv => exec_init_refused hiv s⟩
  · exact (initialRegister_eq_ite _ _ _).trans (if_pos hm)
  · exact (initialRegister_eq_ite _ _ _).trans (if_neg hm)

/-- Settles O19: the two branches of RESET. -/
theorem resetRestoresSnapshot : Obligations.ResetRestoresSnapshot :=
  fun _ => ⟨exec_reset_bound, exec_reset_uninit⟩

/-- Settles O14: the update part over the whole units of `BUF ++ data`. -/
theorem updateCutsWholeUnits : Obligations.UpdateCutsWholeUnits := by
  intro data s
  refine ⟨updateCommand_uninit (P := Config.primitive) data, fun hf => ?_⟩
  intro t g k run
  have hrun : run = bufferRun Config.primitive data s := modeRun_take_whole Config.primitive data rfl
  rw [hrun]
  exact updateCommand_respond Config.primitive data hf

/-- Settles O15: NoPadding asks only whether the update part left a rest. -/
theorem dofinalNoPadding : Obligations.DofinalNoPadding := by
  intro data s hf hp t g k run
  have hrun : run = bufferRun Config.primitive data s := modeRun_take_whole Config.primitive data rfl
  have hrest : bufferRest Config.primitive data s = [] ↔ t.length % g = 0 := bufferRest_eq_nil_iff
  rw [hrun]
  exact ⟨fun h => dofinalCommand_noPadding_whole Config.primitive data hf hp (hrest.mpr h),
    fun h => dofinalCommand_noPadding_residue Config.primitive data hf hp (mt hrest.mp h)⟩

/-- Settles O16: whether the granularity divides the block decides. -/
theorem dofinalEncPkcs5 : Obligations.DofinalEncPkcs5 := by
  intro data s hf hd hp t g k run last
  have hrun : run = bufferRun Config.primitive data s := modeRun_take_whole Config.primitive data (by simp [hd])
  subst last
  rw [hrun]
  exact ⟨dofinalCommand_encPkcs5_divides Config.primitive data hf hd hp,
    dofinalCommand_encPkcs5_not_divides Config.primitive data hf hd hp⟩

/-- Settles O17: with no rest and a last block that `unpad` accepts, the claimed bytes are cut off. -/
theorem dofinalDecPkcs5Strips : Obligations.DofinalDecPkcs5Strips := by
  intro data s hf hd hp t g run body hwhole hB
  have hrun : run = bufferRun Config.primitive data s := by simp [run, bufferRun, hd, t, g]
  have hrest : bufferRest Config.primitive data s = [] := bufferRest_eq_nil_iff.mpr hwhole
  rw [hrun] at hB ⊢
  exact dofinalCommand_decPkcs5_strips Config.primitive data hf hd hp hrest hB

/-- Settles O18: a rest or a short output is found before the padding is looked at. -/
theorem dofinalDecPkcs5Fails : Obligations.DofinalDecPkcs5Fails := by
  intro data s hf hd hp t g k run updated
  have hrun : run = bufferRun Config.primitive data s := modeRun_take_whole Config.primitive data (by simp [hd])
  have hrest : bufferRest Config.primitive data s = [] ↔ t.length % g = 0 := bufferRest_eq_nil_iff
  subst updated
  rw [hrun]
  exact ⟨fun h => dofinalCommand_decPkcs5_incomplete Config.primitive data hf hd hp (h.imp_left (mt hrest.mp)),
    fun h => dofinalCommand_decPkcs5_badPadding Config.primitive data hf hd hp (hrest.mpr h)⟩

end Sys2Proof.Proofs

/-! DOFINAL with an operand of length 0 (47_accumulator.md R216), and the engine's round trip (R223). -/

namespace Sys2Proof.Machine

/-! ## Operands of length 0, from a state that meets R34 -/

section Empty

variable (P : Primitive) {s : State} (hf : s.fsm ≠ .uninit) (hbuf : s.buf.length < granularity P.B s.cfg)
include hf

/-- ENCRYPT and DECRYPT of nothing. -/
theorem directCommand_nil (dec : Bool) : directCommand P dec [] s = .next (respond .ok [] s) := by
  rw [directCommand_aligned dec hf (Nat.zero_mod _), modeOp_nil]
  rfl

include hbuf

theorem updateCommand_nil : updateCommand P [] s = .next (respond .ok [] { s with fsm := .updating }) := by
  rw [updateCommand_respond P [] hf, bufferRun_nil hbuf, bufferRest_nil hbuf]

theorem dofinalCommand_nil_noPadding_empty (hp : s.cfg.pad = .noPadding) (hb : s.buf = []) :
    dofinalCommand P [] s = .next (respond .ok [] { s with fsm := .finalized }) := by
  rw [dofinalCommand_noPadding_whole P [] hf hp ((bufferRest_nil hbuf).trans hb), bufferRun_nil hbuf, ← hb]

theorem dofinalCommand_nil_noPadding_residue (hp : s.cfg.pad = .noPadding) (hb : s.buf ≠ []) :
    dofinalCommand P [] s = .next (respond .incompleteBlock [] { s with fsm := .updating }) := by
  have hrest := bufferRest_nil hbuf
  rw [dofinalCommand_noPadding_residue P [] hf hp (hrest.symm ▸ hb), bufferRun_nil hbuf, hrest]

/-- An output of no bytes is shorter than a block (R210). -/
theorem dofinalCommand_nil_decPkcs5 (hd : s.cfg.dir = .dec) (hp : s.cfg.pad = .pkcs5) :
    dofinalCommand P [] s = .next (respond .incompleteBlock [] { s with fsm := .updating }) := by
  have hrun := bufferRun_nil hbuf
  have hshort : (bufferRun P [] s).y.length < P.B := hrun.symm ▸ P.bounds.1
  rw [dofinalCommand_decPkcs5_incomplete P [] hf hd hp (.inr hshort), hrun, bufferRest_nil hbuf]

theorem dofinalCommand_nil_encPkcs5 (hd : s.cfg.dir = .enc) (hp : s.cfg.pad = .pkcs5)
    (hg : P.B % granularity P.B s.cfg = 0) :
    let last := modeRun P s.cfg false (unitsOf (granularity P.B s.cfg) (padPkcs5 P.B s.buf)) s.regR
    dofinalCommand P [] s = .next (respond .ok last.y { s with regR := last.nextR, buf := [], fsm := .finalized }) := by
  rw [dofinalCommand_encPkcs5_divides P [] hf hd hp hg, bufferRun_nil hbuf, bufferRest_nil hbuf]
  rfl

end Empty

/-! ## The padded message -/

/-- What DOFINAL with PKCS5 runs for the message `p` from an empty `BUF`: whole units, then the rest padded (R206). -/
def paddedMessage (B g : Nat) (p : Bytes) : Bytes :=
  p.take (p.length / g * g) ++ padPkcs5 B (p.drop (p.length / g * g))

section Padded

variable {B g : Nat} (hg : 0 < g) (hgB : g ≤ B) (p : Bytes)
include hg hgB

theorem length_messageRest_lt : (p.drop (p.length / g * g)).length < B := by
  have hdiv := Nat.div_add_mod' p.length g
  have hmod := Nat.mod_lt p.length hg
  rw [List.length_drop]
  omega

theorem length_paddedMessage : (paddedMessage B g p).length = p.length / g * g + B := by
  rw [paddedMessage, List.length_append, length_padPkcs5 (length_messageRest_lt hg hgB p), List.length_take,
    Nat.min_eq_left (Nat.div_mul_le_self _ _)]

theorem length_paddedMessage_mod (hB : B % g = 0) : (paddedMessage B g p).length % g = 0 := by
  rw [length_paddedMessage hg hgB, Nat.mul_add_mod', hB]

/-- The last block of the padded message is the padded rest. -/
theorem drop_paddedMessage :
    (paddedMessage B g p).drop ((paddedMessage B g p).length - B) = padPkcs5 B (p.drop (p.length / g * g)) := by
  rw [length_paddedMessage hg hgB, Nat.add_sub_cancel]
  exact List.drop_left' (by simp [Nat.div_mul_le_self])

/-- Without the bytes the padding added it is the message. -/
theorem take_paddedMessage :
    (paddedMessage B g p).take ((paddedMessage B g p).length - (B - (p.drop (p.length / g * g)).length)) = p := by
  have hrest := length_messageRest_lt hg hgB p
  have hle : p.length / g * g ≤ p.length := Nat.div_mul_le_self _ _
  have hlen : p.length / g * g + B - (B - (p.drop (p.length / g * g)).length) = p.length := by
    rw [List.length_drop] at hrest ⊢
    omega
  rw [length_paddedMessage hg hgB, hlen, paddedMessage, padPkcs5_partial hrest, ← List.append_assoc,
    List.take_append_drop, List.take_left]

end Padded

theorem unitsOf_paddedMessage (B g : Nat) (p : Bytes) :
    unitsOf g (paddedMessage B g p) = unitsOf g p ++ unitsOf g (padPkcs5 B (p.drop (p.length / g * g))) := by
  have hwhole : (p.take (p.length / g * g)).length % g = 0 := by
    rw [List.length_take, Nat.min_eq_left (Nat.div_mul_le_self _ _), Nat.mul_mod_left]
  rw [paddedMessage, unitsOf_append _ hwhole, unitsOf_take_whole]

/-! ## The two ends of a round trip -/

/-- What INIT to encrypt and INIT to decrypt leave: bound states that differ in `DIR`, with one register and nothing
buffered (R223). -/
structure RoundTripEnds (P : Primitive) (t u : State) : Prop where
  boundEnc : t.fsm ≠ .uninit
  boundDec : u.fsm ≠ .uninit
  emptyEnc : t.buf = []
  emptyDec : u.buf = []
  dirEnc : t.cfg.dir = .enc
  cfgDec : u.cfg = { t.cfg with dir := .dec }
  sameR : u.regR = t.regR
  legal : CfgLegal P.B t.cfg
  lengthR : t.regR.length = P.B
  inverse : t.cfg.mode = .ecb ∨ t.cfg.mode = .cbc → P.Inverse

/-- DOFINAL of `p` and DOFINAL of its output succeed and give `p` back. -/
def RoundTrips (P : Primitive) (p : Bytes) (t u : State) : Prop :=
  ∃ t2 u2, dofinalCommand P p t = .next t2 ∧ dofinalCommand P (lastOut t2) u = .next u2 ∧
    t2.lastErr = .ok ∧ u2.lastErr = .ok ∧ lastOut u2 = p

theorem initCommand_accepted {B : Nat} {cfg : Cfg} {iv : Bytes} (hiv : IvLegal B cfg.mode iv) (s : State) :
    initCommand B cfg iv s = .next (complete (bindMode B cfg iv (openOutput s))) :=
  if_pos ((ivAccepted_iff _ _ _).mpr hiv)

theorem roundTripEnds_init {P : Primitive} {mode : Mode} {pad : Pad} {w : BitVec 8} {iv : Bytes}
    (hw : legalWidth P.B mode w.toNat = true) (hiv : IvLegal P.B mode iv) (hP : mode = .ecb ∨ mode = .cbc → P.Inverse)
    (s s' : State) :
    RoundTripEnds P (complete (bindMode P.B ⟨.enc, mode, pad, w⟩ iv s))
      (complete (bindMode P.B ⟨.dec, mode, pad, w⟩ iv s')) where
  boundEnc := nofun
  boundDec := nofun
  emptyEnc := rfl
  emptyDec := rfl
  dirEnc := rfl
  cfgDec := rfl
  sameR := rfl
  legal := cfgLegal_of_legalWidth (cfg := ⟨.enc, mode, pad, w⟩) hw
  lengthR := (regLegal_initialRegister (cfg := ⟨.enc, mode, pad, w⟩) ((ivAccepted_iff _ _ _).mpr hiv)).length
  inverse := hP

namespace RoundTripEnds

variable {P : Primitive} {t u : State} (h : RoundTripEnds P t u)
include h

theorem granularity_pos : 0 < granularity P.B t.cfg := (granularity_bounds P.bounds.1 h.legal).1

theorem bufferRun_enc (p : Bytes) :
    bufferRun P p t = modeRun P t.cfg false (unitsOf (granularity P.B t.cfg) p) t.regR := by
  simp [bufferRun, h.emptyEnc, h.dirEnc]

theorem bufferRest_enc (p : Bytes) :
    bufferRest P p t = p.drop (p.length / granularity P.B t.cfg * granularity P.B t.cfg) := by
  simp [bufferRest, h.emptyEnc]

/-- The decrypting end takes the ciphertext of whole units back to them, and keeps no rest. -/
theorem bufferRun_dec {m : Bytes} (hm : m.length % granularity P.B t.cfg = 0) :
    let c := (modeRun P t.cfg false (unitsOf (granularity P.B t.cfg) m) t.regR).y
    (bufferRun P c u).y = m ∧ bufferRest P c u = [] := by
  intro c
  have hback := modeRun_roundTrip h.inverse h.legal hm h.lengthR
  have hlen : c.length = m.length := (length_modeRun false h.legal hm h.lengthR).1
  have hrun : bufferRun P c u = modeRun P t.cfg true (unitsOf (granularity P.B t.cfg) c) t.regR := by
    rw [bufferRun, h.emptyDec, h.cfgDec, h.sameR]
    exact modeRun_withDirPad P t.cfg .dec t.cfg.pad true _ _
  refine ⟨?_, ?_⟩
  · rw [hrun, hback]
  · rw [bufferRest_eq_nil_iff, h.emptyDec, h.cfgDec, granularity_withDirPad, List.nil_append, hlen, hm]

theorem padDec {pad : Pad} (hp : t.cfg.pad = pad) : u.cfg.pad = pad := by
  rw [h.cfgDec, ← hp]

/-- Whole units, not padded. -/
theorem roundTrip_noPadding (hp : t.cfg.pad = .noPadding) {p : Bytes} (hm : p.length % granularity P.B t.cfg = 0) :
    RoundTrips P p t u := by
  have hrest : bufferRest P p t = [] := bufferRest_eq_nil_iff.mpr (by rwa [h.emptyEnc])
  obtain ⟨hmessage, hrest'⟩ := h.bufferRun_dec hm
  rw [← h.bufferRun_enc] at hmessage hrest'
  have hdec := dofinalCommand_noPadding_whole P _ h.boundDec (h.padDec hp) hrest'
  rw [hmessage] at hdec
  exact ⟨_, _, dofinalCommand_noPadding_whole P p h.boundEnc hp hrest, by rwa [lastOut_respond], rfl, rfl,
    lastOut_respond _ _ _⟩

/-- Any message, padded: the decrypting end gets the padded message, whose last block `unpad` accepts (46_padding.md
R189). -/
theorem roundTrip_pkcs5 (hp : t.cfg.pad = .pkcs5) (hB : P.B % granularity P.B t.cfg = 0) (p : Bytes) :
    RoundTrips P p t u := by
  have hg := h.granularity_pos
  have hgB := granularity_le h.legal
  have henc := dofinalCommand_encPkcs5_divides P p h.boundEnc h.dirEnc hp hB
  have hout := modeRun_append P t.cfg false (unitsOf (granularity P.B t.cfg) p)
    (unitsOf (granularity P.B t.cfg) (padPkcs5 P.B (bufferRest P p t))) t.regR
  obtain ⟨hmessage, hrest⟩ := h.bufferRun_dec (length_paddedMessage_mod hg hgB p hB)
  rw [unitsOf_paddedMessage, ← h.bufferRest_enc, hout, ← h.bufferRun_enc] at hmessage hrest
  have hdec := dofinalCommand_decPkcs5_strips P _ h.boundDec (by rw [h.cfgDec]) (h.padDec hp) hrest
    (by rw [hmessage, length_paddedMessage hg hgB]; exact Nat.le_add_left _ _)
    (body := p.drop (p.length / granularity P.B t.cfg * granularity P.B t.cfg))
    (by rw [hmessage, drop_paddedMessage hg hgB]
        exact unpadPkcs5_padPkcs5 P.bounds.2 (length_messageRest_lt hg hgB p))
  rw [hmessage, take_paddedMessage hg hgB] at hdec
  exact ⟨_, _, henc, by rwa [lastOut_respond], rfl, rfl, lastOut_respond _ _ _⟩

theorem roundTrip {p : Bytes} (hpkcs5 : t.cfg.pad = .pkcs5 → P.B % granularity P.B t.cfg = 0)
    (hplain : t.cfg.pad = .noPadding → p.length % granularity P.B t.cfg = 0) : RoundTrips P p t u := by
  cases hp : t.cfg.pad
  case noPadding => exact h.roundTrip_noPadding hp (hplain hp)
  case pkcs5 => exact h.roundTrip_pkcs5 hp (hpkcs5 hp) p

end RoundTripEnds

end Sys2Proof.Machine

namespace Sys2Proof.Proofs

open Sys2Proof Sys2Proof.Machine

/-- Settles O47: with nothing new `BUF` stays less than one unit, so no command has a unit to run but the padded one. -/
theorem zeroLengthCommands : Obligations.ZeroLengthCommands := by
  intro s hinv hf
  have hbuf : s.buf.length < granularity Config.primitive.B s.cfg := hinv.bufShort hf
  exact ⟨updateCommand_nil _ hf hbuf, directCommand_nil Config.primitive hf false,
    directCommand_nil Config.primitive hf true, dofinalCommand_nil_noPadding_empty _ hf hbuf,
    dofinalCommand_nil_noPadding_residue _ hf hbuf, fun hp hd => dofinalCommand_nil_decPkcs5 _ hf hbuf hd hp,
    fun hp hd => dofinalCommand_nil_encPkcs5 _ hf hbuf hd hp⟩

/-- Settles O53: two accepted INITs leave the ends of a round trip. -/
theorem engineRoundTrip : Obligations.EngineRoundTrip := by
  intro P mode pad w iv p s s' hw hiv hP hpkcs5 hplain
  have hends := roundTripEnds_init (pad := pad) hw hiv hP (openOutput s) (openOutput s')
  obtain ⟨t2, u2, henc, hdec, hok⟩ := hends.roundTrip hpkcs5 hplain
  exact ⟨_, t2, _, u2, initCommand_accepted hiv s, henc, initCommand_accepted hiv s', hdec, hok⟩

end Sys2Proof.Proofs

/-! Errors and totality (60_exceptions.md): early and late errors (R240, R241, R245), the next `FSM` of every command
(47_accumulator.md R220), hardware reset (70_reset_and_hazards.md R270, R271), and that every framed request is answered
(R246). -/

namespace Sys2Proof.Machine

/-! ## Early errors (R241) -/

/-- The error a command finds before it writes anything, in the order of its checks (R242). -/
def earlyErr (i : Instr) (s : State) : Option Err :=
  match i with
  | .init _ mode _ _ iv => if ivAccepted Config.B mode iv = true then none else some .invalidIv
  | .update _ | .dofinal _ | .reset | .save => if s.fsm = .uninit then some .illegalState else none
  | .restore => if s.sValid = false then some .noSavedState else none
  | .encrypt d | .decrypt d =>
    if s.fsm = .uninit then some .illegalState
    else if d.length % granularity Config.B s.cfg ≠ 0 then some .unalignedLength else none
  | _ => none

/-- Early errors are found in `FSM`, `S_VALID` and `CFG`, none of which a failing command writes. -/
theorem earlyErr_raise (i : Instr) (e : Err) (s : State) : earlyErr i (raise e s) = earlyErr i s := by
  cases i <;> rfl

/-- In UNINIT, where `S_VALID = 0`, every command but INIT fails early (R236). -/
theorem earlyErr_uninit {i : Instr} {s : State} (hc : i.isCommand = true)
    (hinit : ∀ dir mode pad w iv, i ≠ .init dir mode pad w iv) (hf : s.fsm = .uninit) (hv : s.sValid = false) :
    earlyErr i s = some (if i = .restore then .noSavedState else .illegalState) := by
  cases i <;> try cases hc
  case init dir mode pad w iv => exact absurd rfl (hinit dir mode pad w iv)
  case restore => exact if_pos hv
  all_goals exact if_pos hf

/-- ENCRYPT and DECRYPT fail early or run; both have the checks of ENCRYPT. -/
theorem directCommand_of_earlyErr {data : Bytes} {s : State} {o : Option Err} (dec : Bool)
    (h : earlyErr (.encrypt data) s = o) :
    directCommand Config.primitive dec data s =
      .next (o.elim (complete (modeOp Config.primitive dec data (openOutput s))) (raise · s)) := by
  subst h
  by_cases hf : s.fsm = .uninit
  · simp [directCommand, earlyErr, hf]
  · by_cases hd : data.length % granularity Config.B s.cfg = 0 <;> simp [directCommand, earlyErr, hf, hd]

theorem exec_of_earlyErr {i : Instr} {s : State} {e : Err} (h : earlyErr i s = some e) :
    exec i s = .next (raise e s) := by
  cases i
  case init =>
    simp only [earlyErr, Option.ite_none_left_eq_some, Option.some.injEq] at h
    obtain ⟨hguard, rfl⟩ := h
    exact if_neg hguard
  case update | dofinal | reset | save | restore =>
    simp only [earlyErr, Option.ite_none_right_eq_some, Option.some.injEq] at h
    obtain ⟨hguard, rfl⟩ := h
    exact if_pos hguard
  case encrypt => exact directCommand_of_earlyErr false h
  case decrypt => exact directCommand_of_earlyErr true h
  all_goals cases h

theorem exec_of_no_earlyErr {i : Instr} {s : State} (hc : i.isCommand = true) (hd : ∀ d, i ≠ .dofinal d)
    (h : earlyErr i s = none) : ∃ m, exec i s = .next (complete m) := by
  cases i <;> try cases hc
  case dofinal d => exact absurd rfl (hd d)
  case encrypt => exact ⟨_, directCommand_of_earlyErr false h⟩
  case decrypt => exact ⟨_, directCommand_of_earlyErr true h⟩
  all_goals
    simp only [earlyErr, ite_eq_right_iff, ite_eq_left_iff, reduceCtorEq, imp_false, not_not] at h
  case init => exact ⟨_, if_pos h⟩
  all_goals exact ⟨_, if_neg h⟩

/-- A command that fails, but for a DOFINAL that ran its update part, found an early error. -/
theorem earlyErr_of_exec {i : Instr} {s t : State} (hc : i.isCommand = true) (h : exec i s = .next t)
    (hne : t.lastErr ≠ .ok) (hearly : (∀ d, i ≠ .dofinal d) ∨ s.fsm = .uninit) : earlyErr i s = some t.lastErr := by
  cases he : earlyErr i s
  case some e =>
    cases h.symm.trans (exec_of_earlyErr he)
    rfl
  case none =>
    have hd : ∀ d, i ≠ .dofinal d := by
      rcases hearly with hd | hf
      · exact hd
      · rintro d rfl
        cases (if_pos hf).symm.trans he
    obtain ⟨m, hm⟩ := exec_of_no_earlyErr hc hd he
    cases h.symm.trans hm
    exact absurd rfl hne

/-! ## Late errors (R241) -/

/-- A DOFINAL that fails after its update part leaves what UPDATE leaves but for `LAST_ERR` and the response. -/
theorem dofinalCommand_late {P : Primitive} {data : Bytes} {s t : State} (hf : s.fsm ≠ .uninit)
    (h : dofinalCommand P data s = .next t) (hne : t.lastErr ≠ .ok) :
    (t.lastErr = .unalignedLength ∨ t.lastErr = .incompleteBlock ∨ t.lastErr = .badPadding) ∧
      t = respond t.lastErr [] { complete (updatePart P data (openOutput s)) with responses := s.responses } := by
  rcases dofinalCommand_next h with ⟨hu, -⟩ | ⟨-, e, he, rfl⟩ | ⟨-, u, -, rfl⟩
  · exact absurd hu hf
  · exact ⟨finalPart_error he, rfl⟩
  · exact absurd rfl hne

/-! ## The next `FSM` (R220) -/

/-- `FSM` after a command that succeeds. -/
def fsmAfterSuccess (i : Instr) (f : Fsm) : Fsm :=
  match i with
  | .init .. => .initialized
  | .update _ => .updating
  | .dofinal _ => .finalized
  | .reset => .initialized
  | _ => f

/-- `FSM` after a command that fails: a DOFINAL outside UNINIT has run its update part. -/
def fsmAfterFailure (i : Instr) (f : Fsm) : Fsm :=
  match i with
  | .dofinal _ => if f = .uninit then .uninit else .updating
  | _ => f

theorem fsmAfterFailure_early {i : Instr} {f : Fsm} (h : (∀ d, i ≠ .dofinal d) ∨ f = .uninit) :
    fsmAfterFailure i f = f := by
  cases i
  case dofinal d =>
    have hf : f = .uninit := h.resolve_left fun hd => hd d rfl
    exact (if_pos hf).trans hf.symm
  all_goals rfl

theorem exec_fsm {i : Instr} {s t : State} (hc : i.isCommand = true) (he : exec i s = .next t) :
    (t.lastErr = .ok ∧ t.fsm = fsmAfterSuccess i s.fsm) ∨
    (t.lastErr ≠ .ok ∧ t.fsm = fsmAfterFailure i s.fsm) := by
  rcases exec_next hc he with ⟨e, rfl, hne, hearly⟩ | ⟨dir, mode, pad, w, iv, rfl, -, rfl⟩ | ⟨-, d, rfl, rfl⟩ |
    ⟨hf, d, e, rfl, hfinal, rfl⟩ | ⟨-, d, u, rfl, -, rfl⟩ | ⟨-, rfl, rfl⟩ | ⟨-, rfl, rfl⟩ | ⟨-, rfl, rfl⟩ |
    ⟨-, d, dec, rfl, -, rfl⟩
  case inl => exact .inr ⟨hne, (fsmAfterFailure_early hearly).symm⟩
  case inr.inr.inr.inl =>
    have hne : e ≠ .ok := by rcases finalPart_error hfinal with rfl | rfl | rfl <;> decide
    exact .inr ⟨hne, (if_neg hf).symm⟩
  case inr.inr.inr.inr.inr.inr.inr.inr => cases dec <;> exact .inl ⟨rfl, rfl⟩
  all_goals exact .inl ⟨rfl, rfl⟩

/-- No command leads back to UNINIT (70_reset_and_hazards.md R271). -/
theorem exec_keeps_bound {i : Instr} {s t : State} (hc : i.isCommand = true) (he : exec i s = .next t)
    (hf : s.fsm ≠ .uninit) : t.fsm ≠ .uninit := by
  rcases exec_fsm hc he with ⟨-, h⟩ | ⟨-, h⟩ <;> rw [h]
  · cases i
    case init | update | dofinal | reset => nofun
    all_goals exact hf
  · cases i
    case dofinal d => exact (if_neg hf).trans_ne nofun
    all_goals exact hf

/-! ## What a bound state's `FSM` decides (90_conflicts.md C1) -/

/-- ENCRYPT and DECRYPT keep `FSM` and tell no two bound values apart. -/
theorem directCommand_bound_fsm (P : Primitive) (dec : Bool) (data : Bytes) (s : State) :
    ∃ (e : Err) (v : Bytes) (m : State), ∀ f ≠ Fsm.uninit,
      directCommand P dec data { s with fsm := f } = .next (respond e v { m with fsm := f }) := by
  by_cases hd : data.length % granularity P.B s.cfg = 0
  · exact ⟨.ok, (modeOp P dec data (openOutput s)).out, modeOp P dec data (openOutput s), fun f hf =>
      directCommand_aligned (s := { s with fsm := f }) dec hf hd⟩
  · exact ⟨.unalignedLength, [], s, fun f hf => directCommand_unaligned (s := { s with fsm := f }) dec hf hd⟩

/-- A command of a bound state answers alike for every bound value of `FSM`: it overwrites `FSM` or keeps it. -/
theorem exec_bound_fsm {i : Instr} (hc : i.isCommand = true) (s : State) :
    (∃ t, ∀ f ≠ Fsm.uninit, exec i { s with fsm := f } = .next t) ∨
    (∃ (e : Err) (v : Bytes) (m : State), ∀ f ≠ Fsm.uninit,
      exec i { s with fsm := f } = .next (respond e v { m with fsm := f })) := by
  cases i <;> try cases hc
  case init dir mode pad w iv =>
    by_cases hiv : IvLegal Config.B mode iv
    · exact .inl ⟨complete (bindMode Config.B ⟨dir, mode, pad, w⟩ iv (openOutput s)), fun f _ =>
        exec_init_accepted hiv { s with fsm := f }⟩
    · exact .inr ⟨.invalidIv, [], s, fun f _ => exec_init_refused hiv { s with fsm := f }⟩
  case update d =>
    exact .inl ⟨complete (updatePart Config.primitive d (openOutput s)), fun f hf =>
      updateCommand_bound (s := { s with fsm := f }) hf d⟩
  case dofinal d =>
    cases hfinal : finalPart Config.primitive (updatePart Config.primitive d (openOutput s))
    case error e =>
      exact .inl ⟨raise e (updatePart Config.primitive d (openOutput s)), fun f hf =>
        dofinalCommand_error (s := { s with fsm := f }) hf d hfinal⟩
    case ok u =>
      exact .inl ⟨complete { u with fsm := .finalized }, fun f hf =>
        dofinalCommand_ok (s := { s with fsm := f }) hf d hfinal⟩
  case reset =>
    exact .inl ⟨complete { restoreSnapshot (openOutput s) with buf := [], fsm := .initialized }, fun f hf =>
      exec_reset_bound (s := { s with fsm := f }) hf⟩
  case save =>
    exact .inr ⟨.ok, [], takeSnapshot (openOutput s), fun f hf => exec_save_bound (s := { s with fsm := f }) hf⟩
  case restore =>
    by_cases hv : s.sValid = true
    · exact .inr ⟨.ok, [], restoreSnapshot (openOutput s), fun f _ =>
        exec_restore_valid (s := { s with fsm := f }) hv⟩
    · exact .inr ⟨.noSavedState, [], s, fun f _ =>
        exec_restore_invalid (s := { s with fsm := f }) (Bool.eq_false_iff.mpr hv)⟩
  case encrypt d => exact .inr (directCommand_bound_fsm Config.primitive false d s)
  case decrypt d => exact .inr (directCommand_bound_fsm Config.primitive true d s)

/-! ## Steps -/

theorem step_hardwareReset {s : State} {rest : List HostMove} (hin : s.input = .hardwareReset :: rest) :
    step s = .next (hardwareReset Config.B { s with input := rest }) := by
  simp only [step, hin]

/-- Every field that `STATUS` shows is zero after hardware reset (70_reset_and_hazards.md R270). -/
theorem statusWord_hardwareReset (B : Nat) (s : State) : statusWord (hardwareReset B s) = 0x00000000#32 := by
  simp only [statusWord, bufCnt, hardwareReset_lastErr, hardwareReset_fsm, hardwareReset_sValid, hardwareReset_buf]
  rfl

theorem cfgWord_hardwareReset (B : Nat) (s : State) : cfgWord (hardwareReset B s).cfg = 0#32 := by
  rw [hardwareReset_cfg]
  decide

theorem step_waiting {s : State} (hin : s.input = []) : step s = .next s := by
  simp only [step, hin]

/-- A framed request is a command or an illegal word, and both are answered. -/
theorem step_command_total {s : State} {q : Request} {rest : List HostMove} (hin : s.input = .command q :: rest)
    (hq : Framed Config.B q) : ∃ t, step s = .next t := by
  cases hl : illegalWord Config.B q.word
  case none =>
    obtain ⟨i, hi⟩ := (exists_decode_iff hq).mpr hl
    obtain ⟨t, ht⟩ := exec_total (s := { s with input := rest }) (decode_isCommand hi)
    exact ⟨t, (step_command hin hi).trans ht⟩
  case some why => exact ⟨_, step_illegal hin (decode_illegal hl (hq.operand_nil hl))⟩

/-- A step whose next move can be performed answers a next state. -/
theorem step_total {s : State} (h : InputFramed Config.B s) : ∃ t, step s = .next t := by
  rcases hin : s.input with _ | ⟨q | _, rest⟩
  · exact ⟨_, step_waiting hin⟩
  · exact step_command_total hin (h q rest hin)
  · exact ⟨_, step_hardwareReset hin⟩

/-- Only a request with an operand of another length than its word states has no step (93_implementation_defined.md
U13). -/
theorem step_refused_iff {s : State} {r : Refusal} :
    step s = .refused r ↔ r = .operandNotFramed ∧ ∃ q rest, s.input = .command q :: rest ∧ ¬ Framed Config.B q := by
  constructor
  · intro h
    have hnot : ¬ InputFramed Config.B s := fun hs => by
      obtain ⟨t, ht⟩ := step_total hs
      cases h.symm.trans ht
    simp only [InputFramed, not_forall] at hnot
    obtain ⟨q, rest, hin, hq⟩ := hnot
    cases h.symm.trans (step_misframed hin (if_pos hq))
    exact ⟨rfl, q, rest, hin, hq⟩
  · rintro ⟨rfl, q, rest, hin, hq⟩
    exact step_misframed hin (if_pos hq)

/-- The move a step performs is taken from the host's list. -/
theorem step_command_input {s t : State} {q : Request} {rest : List HostMove} (hin : s.input = .command q :: rest)
    (hstep : step s = .next t) : t.input = rest := by
  rcases step_command_next hin hstep with ⟨i, hq, he⟩ | rfl
  · obtain ⟨m, e, v, rfl, -, hm, -⟩ := exec_respond (decode_isCommand hq) he
    exact hm
  · rfl

end Sys2Proof.Machine

namespace Sys2Proof.Proofs

open Sys2Proof Sys2Proof.Machine

/-- Settles O39: an early failure is a `raise` on the state the command found. -/
theorem earlyErrorsChangeOnlyLastErr : Obligations.EarlyErrorsChangeOnlyLastErr := by
  intro i s t hc he hne hearly
  have hraise := exec_of_earlyErr (earlyErr_of_exec hc he hne hearly)
  exact Host.Outcome.next.inj (he.symm.trans hraise)

/-- Settles O43: what an early failure wrote is read by no check for early errors. -/
theorem earlyErrorsRepeat : Obligations.EarlyErrorsRepeat := by
  intro i s t hc he hne hearly
  have hearlyErr := earlyErr_of_exec hc he hne hearly
  have ht : t = raise t.lastErr s := earlyErrorsChangeOnlyLastErr i s t hc he hne hearly
  have hagain : earlyErr i t = some t.lastErr := by rw [ht, earlyErr_raise]; exact hearlyErr
  exact ⟨_, exec_of_earlyErr hagain, rfl, rfl⟩

/-- Settles O40: the final part raises on the state of the update part, which UPDATE completes. -/
theorem lateErrorsLeaveTheUpdate : Obligations.LateErrorsLeaveTheUpdate := by
  intro d s t hf he hne
  obtain ⟨herr, ht⟩ := dofinalCommand_late (P := Config.primitive) hf he hne
  exact ⟨or_left_comm.mp herr, _, updateCommand_bound (P := Config.primitive) hf d, rfl, ht⟩

/-- Settles O34: in UNINIT the early errors of R236, elsewhere the table of R220. -/
theorem fsmTransitions : Obligations.FsmTransitions := by
  intro i s hc hbound
  obtain ⟨t, he⟩ := exec_total (s := s) hc
  have hfsm := exec_fsm hc he
  refine ⟨t, he, fun hf hinit => ?_, fun hok => ?_, fun hne => ?_⟩
  · have hv : s.sValid = false := Bool.eq_false_iff.mpr fun hv => hbound.mp hv hf
    cases he.symm.trans (exec_of_earlyErr (earlyErr_uninit hc hinit hf hv))
    exact ⟨rfl, hf⟩
  · exact (hfsm.resolve_right fun h => h.1 hok).2
  · exact (hfsm.resolve_left fun h => hne h.1).2

/-- Settles O48: both runs are one answer, given on one state or on two that differ in `FSM`. -/
theorem finalizedActsAsInitialized : Obligations.FinalizedActsAsInitialized := by
  intro i s hc
  rcases exec_bound_fsm hc s with ⟨t, hown⟩ | ⟨e, v, m, hkept⟩
  · exact ⟨_, _, hown .finalized nofun, hown .initialized nofun, rfl, rfl, .inl rfl⟩
  · refine ⟨_, _, hkept .finalized nofun, hkept .initialized nofun, rfl, ?_, .inr ⟨rfl, rfl⟩⟩
    simp only [lastOut_respond]

/-- Settles O35: waiting, an illegal word and every command leave a bound state bound; RESET restores `R` alone from
`S`. -/
theorem onlyHardwareResetLeadsToUninit : Obligations.OnlyHardwareResetLeadsToUninit := by
  refine ⟨fun s t hstep hf hu => ?_, fun s t hf he => ?_⟩
  · rcases step_next hstep with ⟨-, rfl⟩ | ⟨rest, hin, rfl⟩ | ⟨q, rest, i, -, hq, he⟩ | ⟨q, rest, why, -, -, rfl⟩
    · exact absurd hu hf
    · exact ⟨rest, hin, rfl, rfl, rfl⟩
    · exact absurd hu (exec_keeps_bound (decode_isCommand hq) he hf)
    · exact absurd hu hf
  · cases he.symm.trans (exec_reset_bound hf)
    exact ⟨rfl, rfl, rfl, rfl⟩

/-- Settles O9: hardware reset writes the reset state, whose views are computed. -/
theorem hardwareResetFromAnyState : Obligations.HardwareResetFromAnyState :=
  fun _ _ hin => ⟨_, step_hardwareReset hin, rfl, rfl, rfl, rfl, rfl, rfl, rfl, cfgWord_hardwareReset _ _, rfl, rfl,
    statusWord_hardwareReset _ _⟩

/-- Settles O8: every move that is no misframed request has a next state, and `Fault` has no constructor (log entry
13). -/
theorem stepStopsOnlyOnMisframedOperand : Obligations.StepStopsOnlyOnMisframedOperand :=
  fun _ => ⟨fun _ => step_refused_iff, nofun, step_waiting⟩

/-- Settles O7: a command step ends in `respond`, which puts one response behind the others. -/
theorem everyFramedCommandIsAnswered : Obligations.EveryFramedCommandIsAnswered := by
  intro s q rest hin hq
  obtain ⟨t, hstep⟩ := step_command_total hin hq
  have hinput := step_command_input hin hstep
  have herr := (statusWord_fields t).1
  obtain ⟨m, e, v, rfl, hm, hv⟩ := step_command_respond hin hstep
  refine ⟨_, _, hstep, hinput, (respond_responses e v m).trans (by rw [hm]), rfl, rfl, herr, fun hne => ?_⟩
  rw [hv hne]
  exact ⟨rfl, rfl⟩

end Sys2Proof.Proofs
